-- ==== Sys2Proof/Word.lean ====
section
/-! DEFINITION. The word type of CA1 CORE and its plainest arithmetic (00_scope.md R7, R8). -/

namespace Sys2Proof

/-- A byte: a register's, a memory cell's or an opcode's contents (00_scope.md R6, R7). Bit 0 is the
least significant bit. -/
abbrev Byte := BitVec 8

/-- The index of a general-purpose register, 0 to 7 (10_state.md R21). -/
abbrev RegIdx := Fin 8

/-- The number of an interrupt line, 0 to 7 (60_exceptions.md R146). -/
abbrev Line := Fin 8

/-- `trunc8(v) = v mod 256` (00_scope.md R8). -/
def trunc8 (v : Nat) : Byte := BitVec.ofNat 8 v

end Sys2Proof
end

