-- ==== Sys2Proof/Config.lean ====
section
/-! DEFINITION. The implementation parameters of CA1 CORE that the spec leaves OPEN and that stay fixed
while the core runs (00_scope.md R6): `MEM_SIZE` and `OPC_ST`. The OPEN reset values are
`Sys2Proof.Machine.ResetParams`. -/

namespace Sys2Proof

/-- The two parameters the tick relation takes (10_state.md R20, 00_scope.md R6). A statement of this
package quantifies over them, or names their value. -/
structure Config where
  /-- `MEM_SIZE`, the number of addressable bytes: an integer >= 1 (20_memory.md R40). -/
  memSize : Nat
  /-- `OPC_ST`, the opcode byte of STORE (30_encoding.md R66). -/
  opcST   : Byte
  deriving DecidableEq, Repr

/-- The bytes `OPC_ST` may be: not the opcode of another instruction, and not 0xFF (30_encoding.md R66). -/
def admissibleStoreOpcode (b : Byte) : Bool :=
  b != 0x04 && b != 0x05 && b != 0x06 && b != 0x1B && b != 0xFF

/-- The legal parameter values (00_scope.md R6, 30_encoding.md R66). -/
def Config.legal (c : Config) : Bool :=
  decide (1 ≤ c.memSize) && admissibleStoreOpcode c.opcST

/-- Which of the 251 admissible bytes `OPC_ST` is after `State.reset`. A free value: the spec gives no value
(91_not_in_source.md N1), so it has no body and nothing can be proved of it but that it is one of the 251.
DESIGN CHOICE, safe: log 3. -/
opaque Config.storeSlot : Fin 251

/-- The admissible byte that a slot stands for: 0x00 to 0xFE in rising order, less 0x04, 0x05, 0x06 and 0x1B. -/
def storeOpcodeOfSlot (k : Fin 251) : Byte :=
  if k.val < 4 then BitVec.ofNat 8 k.val
  else if k.val < 24 then BitVec.ofNat 8 (k.val + 3)
  else BitVec.ofNat 8 (k.val + 4)

end Sys2Proof
end

