-- ==== Sys2Proof/Syntax.lean ====
section
/-! DEFINITION. The instructions of CA1 CORE as syntax: one constructor per row of spec/opcode_table.json, the
handlers of the dispatch table, and the four formats (30_encoding.md R61, R65). -/

namespace Sys2Proof

/-- An instruction with its operand bytes as they stand in memory. A register selector is a WHOLE byte
(30_encoding.md R62): a selector above 7 is a term of this type, ill-formed, whose meaning raises
BAD_REGISTER. -/
inductive Instr where
  /-- HALT (41_control.md R100). -/
  | halt
  /-- LOAD-IMMEDIATE r, imm (42_load_store.md R110). -/
  | loadImmediate (r imm : Byte)
  /-- MULTIPLY rA, rB (43_alu.md R121). -/
  | multiply (rA rB : Byte)
  /-- PRINT-REGISTER r (44_output.md R130). -/
  | printRegister (r : Byte)
  /-- STORE rA, rB (42_load_store.md R111). -/
  | store (rA rB : Byte)
  deriving DecidableEq, Repr

/-- The handlers that the dispatch table maps opcodes to (30_encoding.md R65). -/
inductive Handler where
  | halt | loadImmediate | multiply | printRegister | store
  deriving DecidableEq, Repr

/-- The four formats (30_encoding.md R61): no operand; one register; register and immediate; two registers. -/
inductive Format where
  | n | r | ri | rr
  deriving DecidableEq, Repr

/-- An instruction's width in bytes is fixed by its format (30_encoding.md R61). -/
def Format.width : Format → Nat
  | .n  => 1
  | .r  => 2
  | .ri => 3
  | .rr => 3

/-- The format column of 30_encoding.md R65. -/
def Handler.format : Handler → Format
  | .halt          => .n
  | .loadImmediate => .ri
  | .multiply      => .rr
  | .printRegister => .r
  | .store         => .rr

/-- The width column of 30_encoding.md R65: how far the handler advances `pc` (40_cycle.md R89). -/
def Handler.width (h : Handler) : Nat := h.format.width

/-- The handler an instruction runs. -/
def Instr.handler : Instr → Handler
  | .halt              => .halt
  | .loadImmediate _ _ => .loadImmediate
  | .multiply _ _      => .multiply
  | .printRegister _   => .printRegister
  | .store _ _         => .store

/-- The number of bytes an instruction occupies (00_scope.md R15, Width). -/
def Instr.width (i : Instr) : Nat := i.handler.width

end Sys2Proof
end

