-- ==== Sys2Proof/WellFormed.lean ====
section
/-! DEFINITION. Which instructions are well-formed: every register selector is 0 to 7 (30_encoding.md R62). -/

namespace Sys2Proof

/-- `b[7:3] = 0`, that is 0 <= b <= 7: the byte selects a general-purpose register (30_encoding.md R62). -/
def validSelector (b : Byte) : Bool := decide (b.toNat < 8)

/-- Every selector of the instruction is valid. The immediate of LOAD-IMMEDIATE has no illegal value
(30_encoding.md R63, R68). -/
def Instr.wellFormed : Instr → Bool
  | .halt              => true
  | .loadImmediate r _ => validSelector r
  | .multiply rA rB    => validSelector rA && validSelector rB
  | .printRegister r   => validSelector r
  | .store rA rB       => validSelector rA && validSelector rB

end Sys2Proof
end

