-- ==== Sys2Proof/Decode.lean ====
section
/-! DEFINITION. Decoding bytes into an instruction, total and rejecting by name, and the encoder beside it
(30_encoding.md R60 to R71). -/

namespace Sys2Proof

/-- `Decode(op)`: the dispatch table as a fixed function of the opcode byte and `OPC_ST`
(30_encoding.md R71). -/
def decodeOpcode (opcST op : Byte) : Option Handler :=
  if op = 0x1B then some .halt
  else if op = 0x04 then some .loadImmediate
  else if op = 0x05 then some .multiply
  else if op = 0x06 then some .printRegister
  else if op = opcST then some .store
  else none

/-- The rows of the dispatch table: opcode byte and handler (30_encoding.md R65). -/
def dispatchTable (opcST : Byte) : List (Byte × Handler) :=
  [(0x1B, .halt), (0x04, .loadImmediate), (0x05, .multiply), (0x06, .printRegister), (opcST, .store)]

/-- Why bytes are not an instruction. -/
inductive DecodeError where
  /-- There is no opcode byte. -/
  | noBytes
  /-- The opcode has no dispatch-table entry (30_encoding.md R67). -/
  | invalidOpcode (op : Byte)
  /-- The bytes end before the handler's last operand. -/
  | missingOperand (h : Handler)
  deriving DecidableEq, Repr

/-- What decoding answers: the instruction and the bytes after it, or the reason there is none. -/
inductive Decoded where
  | instr (i : Instr) (rest : List Byte)
  | rejected (why : DecodeError)
  deriving DecidableEq, Repr

/-- The operand bytes of each handler, at consecutive addresses after the opcode (30_encoding.md R60, R61). -/
def decodeOperands : Handler → List Byte → Decoded
  | .halt, rest                    => .instr .halt rest
  | .loadImmediate, r :: imm :: rest => .instr (.loadImmediate r imm) rest
  | .multiply, rA :: rB :: rest    => .instr (.multiply rA rB) rest
  | .printRegister, r :: rest      => .instr (.printRegister r) rest
  | .store, rA :: rB :: rest       => .instr (.store rA rB) rest
  | h, _                           => .rejected (.missingOperand h)

/-- Decode the instruction at the head of the bytes. Selectors are not checked here: a selector above 7
decodes, and its handler raises BAD_REGISTER (30_encoding.md R62, R68). -/
def decode (opcST : Byte) : List Byte → Decoded
  | [] => .rejected .noBytes
  | op :: rest =>
    match decodeOpcode opcST op with
    | some h => decodeOperands h rest
    | none   => .rejected (.invalidOpcode op)

/-- The opcode byte of each handler (30_encoding.md R65). -/
def Handler.opcode (opcST : Byte) : Handler → Byte
  | .halt          => 0x1B
  | .loadImmediate => 0x04
  | .multiply      => 0x05
  | .printRegister => 0x06
  | .store         => opcST

/-- The operand bytes of an instruction, in address order (30_encoding.md R61). -/
def Instr.operandBytes : Instr → List Byte
  | .halt                => []
  | .loadImmediate r imm => [r, imm]
  | .multiply rA rB      => [rA, rB]
  | .printRegister r     => [r]
  | .store rA rB         => [rA, rB]

/-- The bytes of an instruction, opcode at the lowest address (30_encoding.md R60, R61). -/
def encode (opcST : Byte) (i : Instr) : List Byte :=
  i.handler.opcode opcST :: i.operandBytes

/-- The length of the longest instruction (30_encoding.md R60). -/
def maxWidth : Nat := 3

/-- The bytes of a word numbered as spec/opcode_table.json numbers it, first byte at the lowest address: byte k
is bits 8k+7 to 8k, and every bit from `nbits` on is 0, up to the longest instruction. -/
def tableBytes (nbits w : Nat) : List Byte :=
  (List.range maxWidth).map fun k => BitVec.ofNat 8 (w % 2 ^ nbits / 256 ^ k)

/-- The parameters of `State.reset`: the memory size of the spec's own default configuration
(95_test_vectors.md; DESIGN CHOICE, unsafe: log 2), and an opaque admissible `OPC_ST` (log 3). -/
def resetConfig : Config := { memSize := 256, opcST := storeOpcodeOfSlot Config.storeSlot }

/-- The instruction the decoder reads from an instruction whose bits are `w`, under `resetConfig`. -/
def decodeTableWord (nbits w : Nat) : Option Instr :=
  match decode resetConfig.opcST (tableBytes nbits w) with
  | .instr i _  => some i
  | .rejected _ => none

end Sys2Proof
end

