-- ==== Sys2Proof/Machine/State.lean ====
section
/-! DEFINITION. The state of CA1 CORE (10_state.md R20), its events, the reasons a run stops, and the state
after reset (10_state.md R39, 70_reset_and_hazards.md R170). -/

namespace Sys2Proof.Machine

/-- The run state, called `state` in the spec (10_state.md R30). -/
inductive RunState where
  | running | halted
  deriving DecidableEq, Repr

/-- The three fault kinds (60_exceptions.md R140). -/
inductive FaultKind where
  /-- INVALID_OPCODE. -/
  | invalidOpcode
  /-- BAD_REGISTER. -/
  | badRegister
  /-- MEM_RANGE. -/
  | memRange
  deriving DecidableEq, Repr

/-- Why the core is `Halted` (10_state.md R32). -/
inductive HaltCause where
  /-- NONE: the core is `Running`. -/
  | none
  /-- HALT_INSTR: HALT executed. -/
  | haltInstr
  /-- A fault was raised; the cause is its kind. -/
  | fault (k : FaultKind)
  deriving DecidableEq, Repr

/-- `raise F(info)`: a fault with what it carries (00_scope.md R12, 40_cycle.md R85 to R88). -/
inductive Trap where
  /-- `InvalidOpcode(pc, ir)`: the address and opcode are the report's own fields. -/
  | invalidOpcode
  /-- `BadRegister(b)`: the selector byte. -/
  | badRegister (b : Byte)
  /-- `MemRange(a)`: the out-of-range address. -/
  | memRange (a : Nat)
  deriving DecidableEq, Repr

/-- The `detail` field of a report (60_exceptions.md R141). -/
inductive ReportDetail where
  | none
  | selector (b : Byte)
  | address (a : Nat)
  deriving DecidableEq, Repr

/-- An event of the ordered history (00_scope.md R11, 10_state.md R35, R36). -/
inductive Event where
  /-- `Interrupt(i)`: line i was delivered (40_cycle.md R83). -/
  | interrupt (line : Line)
  /-- `Output(v)`: PRINT-REGISTER's value (44_output.md R130). -/
  | output (v : Byte)
  /-- `Report(kind, addr, opcode, detail)` (60_exceptions.md R141). -/
  | report (kind : FaultKind) (addr : Nat) (opcode : Option Byte) (detail : ReportDetail)
  deriving DecidableEq, Repr

/-- Why a run is no result. No tick answers one of these: taking a fault is a NEXT state (40_cycle.md R90), and
the end of the run is then read as faulted (70_reset_and_hazards.md R179). Log 7. -/
inductive Fault where
  /-- Raised by `State.observeRun` of a run that ended with halt_cause BAD_REGISTER (60_exceptions.md R142).
  Safe: another implementation may wrap the selector and go on. -/
  | badRegister
  /-- Raised by `State.observeRun` of a run that ended with halt_cause MEM_RANGE (60_exceptions.md R143).
  Safe: the source calls the outcome undefined. -/
  | memRange
  deriving DecidableEq, Repr

/-- What the model gives no meaning. No tick answers one of these. -/
inductive Refusal where
  /-- Raised by `exec` for an instruction without a meaning: none in this model. Safe. -/
  | notModelled (mnemonic : String)
  /-- Raised by the host move `poke` after the first tick: the host has no such move (70_reset_and_hazards.md
  R174). Safe. -/
  | pokeAfterFirstTick
  /-- Raised by the host move `poke` at an address outside memory (70_reset_and_hazards.md R174). Safe. -/
  | pokeOutOfRange
  deriving DecidableEq, Repr

/-- Memory, sparse: (address, byte), addresses strictly rising, no entry equal to what an unlisted address
reads as (`Memory.wf`, Machine/Ops.lean). -/
abbrev Memory := List Host.Cell

/-- The complete state of the core (10_state.md R20), and the parameters it runs under. -/
structure State where
  /-- MODEL's own: `MEM_SIZE` and `OPC_ST`, fixed for the machine (log 1). -/
  cfg       : Config
  /-- `x[0]` to `x[7]`; slot 5 is also IM and slot 6 also IS (10_state.md R21, R24, R25). -/
  x         : Vector Byte 8
  /-- The program counter, a natural number that never wraps (10_state.md R27). -/
  pc        : Nat
  /-- The most recently fetched opcode byte (10_state.md R29). -/
  ir        : Byte
  /-- `state` (10_state.md R30). -/
  run       : RunState
  /-- `halt_cause` (10_state.md R32). -/
  haltCause : HaltCause
  /-- The memory the core reads and writes (20_memory.md R40). -/
  mem       : Memory
  /-- The event history, oldest first (10_state.md R36). -/
  events    : List Event
  deriving DecidableEq, Repr

/-- The reset values the spec leaves OPEN (10_state.md R39). -/
structure ResetParams where
  /-- `GPR_RESET`. -/
  gpr : Vector Byte 8
  /-- `IR_RESET`. -/
  ir  : Byte
  /-- `MEM_INIT`. -/
  mem : Memory
  deriving DecidableEq, Repr

/-- Reset under parameters `c`, with the OPEN reset values `p` (10_state.md R39, 70_reset_and_hazards.md R170). -/
def State.resetWith (c : Config) (p : ResetParams) : State :=
  { cfg := c, x := p.gpr, pc := 0, ir := p.ir, run := .running, haltCause := .none, mem := p.mem, events := [] }

/-- The OPEN reset values this model names: every register 0 (log 4), `ir` 0 (log 5), no program loaded and
nothing listed in memory (log 6). DESIGN CHOICE, unsafe: the spec gives none. -/
def ResetParams.zero : ResetParams := { gpr := Vector.replicate 8 0, ir := 0, mem := [] }

/-- The machine right after reset. -/
def State.reset : State := State.resetWith resetConfig ResetParams.zero

end Sys2Proof.Machine
end

