-- ==== Sys2Proof/Machine/Ops.lean ====
section
/-! DEFINITION. The named operations over memory, registers, pc and events, and taking a fault
(00_scope.md R9 to R12, 20_memory.md R41, 40_cycle.md R89, R90). -/

namespace Sys2Proof.Machine

/-! ### Memory -/

/-- What an address that the list does not hold reads as (`MEM_INIT` is OPEN, 20_memory.md R49). DESIGN CHOICE,
unsafe: log 6. -/
def Memory.unlisted (_a : Nat) : Byte := 0

/-- The byte at an address. -/
def Memory.read : Memory → Nat → Byte
  | [], a => Memory.unlisted a
  | (b, w) :: m, a => if b = a then w else Memory.read m a

/-- Add the cell (a, v) in front of a list of higher addresses, unless v is what an unlisted address reads as. -/
def Memory.cons (a : Nat) (v : Byte) (m : Memory) : Memory :=
  if v = Memory.unlisted a then m else (a, v) :: m

/-- Set the byte at an address, keeping the canonical form. -/
def Memory.write : Memory → Nat → Byte → Memory
  | [], a, v => Memory.cons a v []
  | (b, w) :: m, a, v =>
    if a < b then Memory.cons a v ((b, w) :: m)
    else if a = b then Memory.cons a v m
    else (b, w) :: Memory.write m a v

/-- Canonical from a lower bound: addresses strictly rising, at least `lo`, and no entry equal to what an unlisted
address reads as. -/
def Memory.wfFrom : Nat → Memory → Bool
  | _, [] => true
  | lo, (a, v) :: m => decide (lo ≤ a) && v != Memory.unlisted a && Memory.wfFrom (a + 1) m

/-- The canonical form. -/
def Memory.wf (m : Memory) : Bool := Memory.wfFrom 0 m

/-- Every listed address exists: it is below `n`. -/
def Memory.below (m : Memory) (n : Nat) : Bool := m.all fun c => decide (c.1 < n)

/-- `MemRead(a, 1)` (20_memory.md R41, R42). -/
def State.memRead (s : State) (a : Nat) : Except Trap Byte :=
  if a < s.cfg.memSize then .ok (s.mem.read a) else .error (.memRange a)

/-- `MemWrite(a, 1, v)` (20_memory.md R41, R42). -/
def State.memWrite (s : State) (a : Nat) (v : Byte) : Except Trap State :=
  if a < s.cfg.memSize then .ok { s with mem := s.mem.write a v } else .error (.memRange a)

/-- Set the bytes from address `a` on, those that exist. The loader's view of memory, not an access of the
core. -/
def State.placeBytes (s : State) (a : Nat) : List Byte → State
  | [] => s
  | v :: vs =>
    State.placeBytes (if a < s.cfg.memSize then { s with mem := s.mem.write a v } else s) (a + 1) vs

/-! ### Registers and pc -/

/-- `x[i]` (10_state.md R22). No register is hardwired (R23). -/
def State.reg (s : State) (i : RegIdx) : Byte := s.x[i]

/-- `x[i] <- v` (10_state.md R22). A byte needs no truncation. -/
def State.setReg (s : State) (i : RegIdx) (v : Byte) : State := { s with x := s.x.set i v }

/-- IM is R5 (10_state.md R24). -/
def State.im (s : State) : Byte := s.reg 5

/-- IS is R6 (10_state.md R25). -/
def State.is (s : State) : Byte := s.reg 6

/-- `pc <- pc + n`: a handler's last effect (40_cycle.md R89). -/
def State.advance (s : State) (n : Nat) : State := { s with pc := s.pc + n }

/-! ### Events and halting -/

/-- `emit E` (00_scope.md R11). -/
def State.emit (s : State) (e : Event) : State := { s with events := s.events ++ [e] }

/-- `state <- Halted` with its cause (10_state.md R30, R32). -/
def State.haltBy (s : State) (c : HaltCause) : State := { s with run := .halted, haltCause := c }

/-- The numeric code of a fault kind (60_exceptions.md R140). -/
def FaultKind.code : FaultKind → Nat
  | .invalidOpcode => 1
  | .badRegister   => 2
  | .memRange      => 3

/-- The numeric code of a halt cause; NONE has none (60_exceptions.md R140). -/
def HaltCause.code : HaltCause → Option Nat
  | .none      => Option.none
  | .haltInstr => some 0
  | .fault k   => some k.code

/-- The kind of a raised fault. -/
def Trap.kind : Trap → FaultKind
  | .invalidOpcode => .invalidOpcode
  | .badRegister _ => .badRegister
  | .memRange _    => .memRange

/-- The `detail` field of a raised fault's report (60_exceptions.md R141). -/
def Trap.detail : Trap → ReportDetail
  | .invalidOpcode => .none
  | .badRegister b => .selector b
  | .memRange a    => .address a

/-- TAKING A FAULT, the core's only trap entry (40_cycle.md R90, 60_exceptions.md R150): emit the report, halt,
record the kind; `pc` stays at the faulting instruction. `opcode` is the fetched byte, or none when the fetch itself
raised (60_exceptions.md R141). There is no return from a fault (60_exceptions.md R151). -/
def State.raise (s : State) (t : Trap) (opcode : Option Byte) : State :=
  (s.emit (.report t.kind s.pc opcode t.detail)).haltBy (.fault t.kind)

/-- A handler's single commit point (40_cycle.md R93): its checks either all pass and give the state after its
effects, or the first that fails is raised, with no effect of the instruction. -/
def State.commit (s : State) (r : Except Trap State) : Host.Outcome State Fault Refusal :=
  match r with
  | .ok t    => .next t
  | .error f => .next (s.raise f (some s.ir))

end Sys2Proof.Machine
end

