-- ==== Sys2Proof/Machine/Flags.lean ====
section
/-! DEFINITION. The core has no flags or condition codes (10_state.md R31): no instruction computes one. The only
flag-like bits are the pending bits of IS and the enable bits of IM, one a line (10_state.md R24, R25). -/

namespace Sys2Proof.Machine

/-- `masked = x[6] & x[5]`: the lines that are pending and enabled (40_cycle.md R82). -/
def State.masked (s : State) : Byte := s.is &&& s.im

/-- The eight lines in ascending order (40_cycle.md R83). -/
def allLines : List Line := [0, 1, 2, 3, 4, 5, 6, 7]

/-- The lines whose bit is set, in ascending order (40_cycle.md R83; the order rests on the spec's decision D11,
log 10). -/
def linesOf (m : Byte) : List Line := allLines.filter fun i => m.getLsb i

end Sys2Proof.Machine
end

