-- ==== Sys2Proof/Machine/Interrupt.lean ====
section
/-! DEFINITION. The interrupt check, step 1 of every running tick (40_cycle.md R82 to R84). -/

namespace Sys2Proof.Machine

/-- The events step 1 emits. -/
def State.interruptEvents (s : State) : List Event := (linesOf s.masked).map .interrupt

/-- Step 1: one `Interrupt(i)` for every pending and enabled line, ascending, then IS cleared whatever the mask
(40_cycle.md R83, R84; log 10). Delivery changes nothing else (60_exceptions.md R148). -/
def State.interruptCheck (s : State) : State :=
  State.setReg { s with events := s.events ++ s.interruptEvents } 6 0

end Sys2Proof.Machine
end

