-- ==== Sys2Proof/Machine/Cycle.lean ====
section
/-! DEFINITION. Steps 1 to 4 of the tick: interrupt check, fetch, decode, fault path (40_cycle.md R81 to R87). -/

namespace Sys2Proof.Machine

/-- The bytes decoding looks at: those at `pc`, `pc + 1` and `pc + 2`. A byte beyond the instruction, or at an
address that does not exist, influences nothing (log 8). -/
def State.window (s : State) : List Byte :=
  (List.range maxWidth).map fun k => s.mem.read (s.pc + k)

/-- Step 2: `ir <- MemRead(pc, 1)` (40_cycle.md R85). -/
def State.fetch (s : State) : Except Trap State :=
  (s.memRead s.pc).map fun op => { s with ir := op }

/-- The state in which step 5 runs: after step 1 and a fetch inside memory (40_cycle.md R84, R85). -/
def State.fetched (s : State) : State := { s.interruptCheck with ir := s.mem.read s.pc }

/-- How a tick goes on after steps 1 to 4. -/
inductive TickStart where
  /-- The core is Halted: the tick has no effect (40_cycle.md R81). -/
  | idle
  /-- The fetch or the decode raised; `t` is the state after the fault was taken. -/
  | faulted (t : State)
  /-- Step 5 runs instruction `i` in state `t`. -/
  | execute (i : Instr) (t : State)
  deriving DecidableEq, Repr

/-- Steps 3 and 4, after the fetch: the handler's instruction, or the fault path (40_cycle.md R86, R87). -/
def State.decodeFetched (s : State) : TickStart :=
  match decode s.cfg.opcST s.window with
  | .instr i _  => .execute i s
  | .rejected _ => .faulted (s.raise .invalidOpcode (some s.ir))

/-- Steps 1 to 4 of the tick (40_cycle.md R91). -/
def State.beginTick (s : State) : TickStart :=
  match s.run with
  | .halted  => .idle
  | .running =>
    match s.interruptCheck.fetch with
    | .error t => .faulted (s.interruptCheck.raise t none)
    | .ok u    => u.decodeFetched

end Sys2Proof.Machine
end

