-- ==== Sys2Proof/Machine/Operands.lean ====
section
/-! DEFINITION. The two operand forms: an operand byte and a register selector (40_cycle.md R88,
30_encoding.md R62, R63). -/

namespace Sys2Proof.Machine

/-- `Operand(k)`: the byte at `pc + k`, a MEM_RANGE fault when that address does not exist (40_cycle.md R88).
`b` is the byte that decoding took from that address; it is used only when the address exists (log 8). -/
def State.operand (s : State) (k : Nat) (b : Byte) : Except Trap Byte :=
  if s.pc + k < s.cfg.memSize then .ok b else .error (.memRange (s.pc + k))

/-- The register a selector byte selects, a BAD_REGISTER fault when it is 8 or more (30_encoding.md R62). -/
def selectReg (b : Byte) : Except Trap RegIdx :=
  if h : b.toNat < 8 then .ok ⟨b.toNat, h⟩ else .error (.badRegister b)

/-- `RegSel(k)`: read operand k, then check it (40_cycle.md R88). -/
def State.regSel (s : State) (k : Nat) (b : Byte) : Except Trap RegIdx :=
  (s.operand k b).bind selectReg

end Sys2Proof.Machine
end

