-- ==== Sys2Proof/Machine/Alu.lean ====
section
/-! DEFINITION. The ALU and MULTIPLY (43_alu.md R120 to R124). -/

namespace Sys2Proof.Machine

/-- The ALU's operations: only multiply (43_alu.md R124). -/
inductive AluOp where
  | mul
  deriving DecidableEq, Repr

/-- `alu(operation, valueA, valueB)`, a pure computation on two bytes (43_alu.md R120): the exact product
modulo 256, silently (R122, R123). -/
def alu (op : AluOp) (a b : Byte) : Byte :=
  match op with
  | .mul => trunc8 (a.toNat * b.toNat)

/-- MULTIPLY: `x[rA] <- ALU(MUL, x[rA], x[rB])` (43_alu.md R121). -/
def execMultiply (rA rB : Byte) (s : State) : Host.Outcome State Fault Refusal :=
  s.commit do
    let a ← s.regSel 1 rA
    let b ← s.regSel 2 rB
    pure ((s.setReg a (alu .mul (s.reg a) (s.reg b))).advance Handler.multiply.width)

end Sys2Proof.Machine
end

