-- ==== Sys2Proof/Machine/Control.lean ====
section
/-! DEFINITION. The control instruction HALT (41_control.md R100). -/

namespace Sys2Proof.Machine

/-- HALT: halt with cause HALT_INSTR and advance `pc` by 1 (41_control.md R100; that HALT advances `pc` rests on
90_conflicts.md C1: log 9). -/
def execHalt (s : State) : Host.Outcome State Fault Refusal :=
  .next ((s.haltBy .haltInstr).advance Handler.halt.width)

end Sys2Proof.Machine
end

