-- ==== Sys2Proof/Machine/Movement.lean ====
section
/-! DEFINITION. Data movement: LOAD-IMMEDIATE and STORE (42_load_store.md R110, R111). -/

namespace Sys2Proof.Machine

/-- LOAD-IMMEDIATE: `x[r] <- imm` (42_load_store.md R110). -/
def execLoadImmediate (r imm : Byte) (s : State) : Host.Outcome State Fault Refusal :=
  s.commit do
    let d ← s.regSel 1 r
    let v ← s.operand 2 imm
    pure ((s.setReg d v).advance Handler.loadImmediate.width)

/-- The effective address of STORE: `zext(x[a])`, 0 to 255 (42_load_store.md R111, R112). -/
def State.storeAddress (s : State) (a : RegIdx) : Nat := (s.reg a).toNat

/-- STORE: `mem[x[rA]] <- x[rB]`, the address checked before the write (42_load_store.md R111). -/
def execStore (rA rB : Byte) (s : State) : Host.Outcome State Fault Refusal :=
  s.commit do
    let a ← s.regSel 1 rA
    let b ← s.regSel 2 rB
    let t ← s.memWrite (s.storeAddress a) (s.reg b)
    pure (t.advance Handler.store.width)

end Sys2Proof.Machine
end

