-- ==== Sys2Proof/Machine/Output.lean ====
section
/-! DEFINITION. Output: PRINT-REGISTER and the text the sink shows (44_output.md R130, R131). -/

namespace Sys2Proof.Machine

/-- PRINT-REGISTER: emit `Output(x[r])` (44_output.md R130). -/
def execPrintRegister (r : Byte) (s : State) : Host.Outcome State Fault Refusal :=
  s.commit do
    let d ← s.regSel 1 r
    pure ((s.emit (.output (s.reg d))).advance Handler.printRegister.width)

/-- The decimal digit of a number below 10. -/
def digitChar (d : Nat) : Char := Char.ofNat (48 + d)

/-- A number below 1000 in decimal, without leading zeros, sign or padding (44_output.md R131; log 17). -/
def decimalChars (n : Nat) : List Char :=
  if n < 10 then [digitChar n]
  else if n < 100 then [digitChar (n / 10), digitChar (n % 10)]
  else [digitChar (n / 100), digitChar (n / 10 % 10), digitChar (n % 10)]

/-- How the sink shows one `Output(v)`: decimal, newline-terminated (44_output.md R131). -/
def renderOutput (v : Byte) : List Char := decimalChars v.toNat ++ ['\n']

/-- What one event adds to the sink's text: only `Output` goes to the output port (10_state.md R34). -/
def Event.text : Event → List Char
  | .interrupt _    => []
  | .output v       => renderOutput v
  | .report _ _ _ _ => []

/-- The text output of a history (44_output.md R131). -/
def outputText (es : List Event) : List Char := es.flatMap Event.text

end Sys2Proof.Machine
end

