-- ==== Sys2Proof/Machine/Dispatch.lean ====
section
/-! DEFINITION. Step 5 of the tick: the handler of each instruction (40_cycle.md R88, R91). -/

namespace Sys2Proof.Machine

def exec (i : Instr) (s : State) : Host.Outcome State Fault Refusal :=
  match i with
  | .halt => Sys2Proof.Machine.execHalt s
  | .loadImmediate r imm => Sys2Proof.Machine.execLoadImmediate r imm s
  | .multiply rA rB => Sys2Proof.Machine.execMultiply rA rB s
  | .printRegister r => Sys2Proof.Machine.execPrintRegister r s
  | .store rA rB => Sys2Proof.Machine.execStore rA rB s

end Sys2Proof.Machine
end

