-- ==== Sys2Proof/Machine/Step.lean ====
section
/-! DEFINITION. The step: one tick (40_cycle.md R80, R91), and placing an instruction where the next tick
fetches. -/

namespace Sys2Proof.Machine

/-- One tick, the core's only transition (40_cycle.md R91). -/
def step (s : State) : Host.Outcome State Fault Refusal :=
  match s.beginTick with
  | .idle        => .next s
  | .faulted t   => .next t
  | .execute i t => exec i t

/-- `s` with an instruction's bytes placed at `pc`, and Running, so that the very next tick fetches it: the
loader's part in a run (70_reset_and_hazards.md R172; log 14). -/
def State.withFetchWord (s : State) (nbits w : Nat) : State :=
  State.placeBytes { s with run := .running, haltCause := .none } s.pc (tableBytes nbits w)

end Sys2Proof.Machine
end

