-- ==== Sys2Proof/Machine/Asm.lean ====
section
/-! DEFINITION. The assembly syntax (30_encoding.md R69): one instruction of text to an instruction, and back. The
core never sees it; there are no pseudo-instructions, directives or labels (R70). Log 18. -/

namespace Sys2Proof

/-- The value of a digit in a base up to 16, either case; none for another character. -/
def digitValue (base : Nat) (c : Char) : Option Nat :=
  let n := c.toNat
  let v := if 48 ≤ n ∧ n ≤ 57 then n - 48
    else if 97 ≤ n ∧ n ≤ 102 then n - 87
    else if 65 ≤ n ∧ n ≤ 70 then n - 55
    else base
  if v < base then some v else none

/-- The value of digits, after a prefix of value `acc`. -/
def digitsValue (base : Nat) : Nat → List Char → Option Nat
  | acc, [] => some acc
  | acc, c :: cs =>
    match digitValue base c with
    | some d => digitsValue base (acc * base + d) cs
    | none   => none

/-- A number in decimal, or in hexadecimal written `0x..`; at least one digit. -/
def parseNumber : List Char → Option Nat
  | []                   => none
  | '0' :: 'x' :: c :: cs => digitsValue 16 0 (c :: cs)
  | c :: cs              => digitsValue 10 0 (c :: cs)

/-- `rN` with N in decimal, 0 to 7; a number above 7 is rejected. -/
def parseReg : List Char → Option Byte
  | 'r' :: c :: cs =>
    match digitsValue 10 0 (c :: cs) with
    | some n => if n < 8 then some (BitVec.ofNat 8 n) else none
    | none   => none
  | _ => none

/-- An immediate, 0 to 255; any other number is rejected. -/
def parseImm (cs : List Char) : Option Byte :=
  match parseNumber cs with
  | some n => if n < 256 then some (BitVec.ofNat 8 n) else none
  | none   => none

/-- Split at the first occurrence of a character; none if there is none. -/
def splitAtChar (sep : Char) : List Char → Option (List Char × List Char)
  | [] => none
  | c :: cs =>
    if c = sep then some ([], cs)
    else (splitAtChar sep cs).map fun p => (c :: p.1, p.2)

/-- Two operands: separated by a comma, after which spaces may stand. -/
def splitOperands (cs : List Char) : Option (List Char × List Char) :=
  (splitAtChar ',' cs).map fun p => (p.1, p.2.dropWhile fun c => c == ' ')

/-- The mnemonic a handler is written with in the source (30_encoding.md R65). -/
def Handler.sourceName : Handler → List Char
  | .halt          => ['H', 'A', 'L', 'T']
  | .loadImmediate => ['L', 'O', 'A', 'D', '-', 'I', 'M', 'M', 'E', 'D', 'I', 'A', 'T', 'E']
  | .multiply      => ['M', 'U', 'L', 'T', 'I', 'P', 'L', 'Y']
  | .printRegister => ['P', 'R', 'I', 'N', 'T', '-', 'R', 'E', 'G', 'I', 'S', 'T', 'E', 'R']
  | .store         => ['S', 'T', 'O', 'R', 'E']

/-- The short mnemonic, the spec's own (30_encoding.md R65). -/
def Handler.shortName : Handler → List Char
  | .halt          => ['H', 'L', 'T']
  | .loadImmediate => ['L', 'D', 'I']
  | .multiply      => ['M', 'U', 'L']
  | .printRegister => ['P', 'R', 'N']
  | .store         => ['S', 'T']

/-- The handler that a mnemonic names, in either spelling. -/
def parseMnemonic (cs : List Char) : Option Handler :=
  [Handler.halt, .loadImmediate, .multiply, .printRegister, .store].find? fun h =>
    cs == h.sourceName || cs == h.shortName

/-- Two operands, each by its own parser. -/
def parsePair (fst snd : List Char → Option Byte) (cs : List Char) : Option (Byte × Byte) :=
  match splitOperands cs with
  | some (a, b) =>
    match fst a, snd b with
    | some v, some w => some (v, w)
    | _, _ => none
  | none => none

/-- The operands of a handler that has some. -/
def parseOperands (h : Handler) (cs : List Char) : Option Instr :=
  match h with
  | .halt          => none
  | .loadImmediate => (parsePair parseReg parseImm cs).map fun p => .loadImmediate p.1 p.2
  | .multiply      => (parsePair parseReg parseReg cs).map fun p => .multiply p.1 p.2
  | .printRegister => (parseReg cs).map .printRegister
  | .store         => (parsePair parseReg parseReg cs).map fun p => .store p.1 p.2

/-- One instruction of assembly text: the mnemonic, a space, and comma-separated operands (30_encoding.md R69). -/
def assemble (cs : List Char) : Option Instr :=
  match splitAtChar ' ' cs with
  | some (m, ops) => (parseMnemonic m).bind fun h => parseOperands h ops
  | none          => if parseMnemonic cs = some .halt then some .halt else none

/-- `r<n>` (30_encoding.md R69). -/
def regText (b : Byte) : List Char := 'r' :: Machine.decimalChars b.toNat

/-- An instruction's operands as text. -/
def Instr.operandText : Instr → List Char
  | .halt                => []
  | .loadImmediate r imm => ' ' :: regText r ++ ',' :: Machine.decimalChars imm.toNat
  | .multiply rA rB      => ' ' :: regText rA ++ ',' :: regText rB
  | .printRegister r     => ' ' :: regText r
  | .store rA rB         => ' ' :: regText rA ++ ',' :: regText rB

/-- An instruction in the source's spelling (30_encoding.md R69). -/
def Instr.asmText (i : Instr) : List Char := i.handler.sourceName ++ i.operandText

end Sys2Proof
end

