-- ==== Sys2Proof/Machine/Driver.lean ====
section
/-! DEFINITION. The host's moves between ticks: loader, driver and interrupt lines (70_reset_and_hazards.md R172 to
R176). The core's ticks are `step`; what stands here is outside the core. -/

namespace Sys2Proof.Machine

/-- The core and the host's own two flags, which are no state of the core (10_state.md R20). -/
structure System where
  core    : State
  /-- A tick has been requested since reset: `poke` is no longer admitted (70_reset_and_hazards.md R174). -/
  ticked  : Bool
  /-- The driver is started (70_reset_and_hazards.md R173). -/
  started : Bool
  deriving DecidableEq, Repr

/-- The host's moves, complete (70_reset_and_hazards.md R176). -/
inductive HostMove where
  /-- `poke(a, v)`, the loader's write (R174). -/
  | poke (a : Nat) (v : Byte)
  /-- Begin ticking (R173). -/
  | start
  /-- Cease ticking (R173). -/
  | stop
  /-- A direct single-step tick (R173). -/
  | step
  /-- The driver's next tick request, which it issues only while started (R173). -/
  | driverTick
  /-- `RaiseLines(m)` (R175). -/
  | raiseLines (m : Byte)
  /-- Read the state and the history (R176). -/
  | observe
  deriving DecidableEq, Repr

/-- The system right after the core's construction: reset, nothing loaded yet, the driver not started
(70_reset_and_hazards.md R170, R172). -/
def System.construct (c : Config) (p : ResetParams) : System :=
  { core := State.resetWith c p, ticked := false, started := false }

/-- `x[6] <- x[6] | m` while Running, no effect while Halted (70_reset_and_hazards.md R175; log 13). -/
def State.raiseLines (s : State) (m : Byte) : State :=
  match s.run with
  | .running => s.setReg 6 (s.is ||| m)
  | .halted  => s

/-- One tick request. -/
def System.tick (sys : System) : Host.Outcome System Fault Refusal :=
  match Sys2Proof.Machine.step sys.core with
  | .next t    => .next { sys with core := t, ticked := true }
  | .fault f   => .fault f
  | .refused r => .refused r

/-- The loader's write: admitted before the first tick and inside memory only, else refused
(70_reset_and_hazards.md R174; log 15). -/
def System.poke (sys : System) (a : Nat) (v : Byte) : Host.Outcome System Fault Refusal :=
  if sys.ticked then .refused .pokeAfterFirstTick
  else if a < sys.core.cfg.memSize then
    .next { sys with core := { sys.core with mem := sys.core.mem.write a v } }
  else .refused .pokeOutOfRange

/-- The effect of one host move (70_reset_and_hazards.md R176). -/
def System.move (sys : System) : HostMove → Host.Outcome System Fault Refusal
  | .poke a v     => sys.poke a v
  | .start        => .next { sys with started := true }
  | .stop         => .next { sys with started := false }
  | .step         => sys.tick
  | .driverTick   => if sys.started then sys.tick else .next sys
  | .raiseLines m => .next { sys with core := sys.core.raiseLines m }
  | .observe      => .next sys

/-- A sequence of host moves, stopping at the first that is refused. -/
def System.moves : List HostMove → System → Host.Outcome System Fault Refusal
  | [], sys => .next sys
  | m :: ms, sys =>
    match sys.move m with
    | .next sys' => System.moves ms sys'
    | .fault f   => .fault f
    | .refused r => .refused r

/-- The pokes that load an image from address `a` on (70_reset_and_hazards.md R172). -/
def loadFrom (a : Nat) : List Byte → List HostMove
  | [] => []
  | v :: vs => .poke a v :: loadFrom (a + 1) vs

/-- The boot sequence up to the first tick, after reset: load the image from address 0 and start the driver
(70_reset_and_hazards.md R172). -/
def bootMoves (image : List Byte) : List HostMove := loadFrom 0 image ++ [.start]

end Sys2Proof.Machine
end

