-- ==== Sys2Proof/Safety.lean ====
section
/-! DEFINITION. What a run's end is, which ends are results, and the invariant of the machine
(70_reset_and_hazards.md R179, 10_state.md R28, R32). -/

namespace Sys2Proof.Machine

/-- How a run ended (70_reset_and_hazards.md R179). -/
inductive RunEnd where
  /-- halt_cause HALT_INSTR. -/
  | normal
  /-- halt_cause INVALID_OPCODE: the source's own fatal end, a defined one. -/
  | invalidOpcode
  /-- halt_cause BAD_REGISTER or MEM_RANGE: a model fault, no result. -/
  | modelFault (f : Fault)
  deriving DecidableEq, Repr

/-- The end of the run in a state; none while Running (70_reset_and_hazards.md R179). -/
def State.runEnd (s : State) : Option RunEnd :=
  match s.run, s.haltCause with
  | .running, _                    => none
  | .halted, .none                 => none
  | .halted, .haltInstr            => some .normal
  | .halted, .fault .invalidOpcode => some .invalidOpcode
  | .halted, .fault .badRegister   => some (.modelFault .badRegister)
  | .halted, .fault .memRange      => some (.modelFault .memRange)

/-- Reading the end of a run (10_state.md R32, 70_reset_and_hazards.md R179): a run that reached BAD_REGISTER or
MEM_RANGE is FAULTED, and its end state is no result (60_exceptions.md R142, R143; log 7). -/
def State.observeRun (s : State) : Host.Outcome State Fault Refusal :=
  match s.runEnd with
  | some (.modelFault f) => .fault f
  | some .normal         => .next s
  | some .invalidOpcode  => .next s
  | none                 => .next s

/-- The kinds of the reports in a history. -/
def reportKinds (es : List Event) : List FaultKind :=
  es.filterMap fun
    | .report k _ _ _ => some k
    | .interrupt _    => none
    | .output _       => none

/-- The reports a halt cause goes with: one for a fault, none otherwise (60_exceptions.md R140, R145). -/
def HaltCause.reports : HaltCause → List FaultKind
  | .none      => []
  | .haltInstr => []
  | .fault k   => [k]

/-- The invariant of the core. -/
structure State.Inv (s : State) : Prop where
  /-- The parameters are legal (00_scope.md R6). -/
  legal     : s.cfg.legal = true
  /-- Memory keeps its canonical form. -/
  canonical : s.mem.wf = true
  /-- Every listed address exists (20_memory.md R40). -/
  inMemory  : s.mem.below s.cfg.memSize = true
  /-- `pc` never exceeds `MEM_SIZE` (10_state.md R28). -/
  pcRange   : s.pc ≤ s.cfg.memSize
  /-- `halt_cause` is NONE exactly while Running (10_state.md R32). -/
  cause     : s.run = .running ↔ s.haltCause = .none
  /-- The history holds one report, of the cause's kind, when a fault halted the core, and none otherwise
  (60_exceptions.md R140, R145). -/
  reports   : reportKinds s.events = s.haltCause.reports

/-- The invariant of the core with its host: before the first tick the core is as reset left it, but for memory and
IS (70_reset_and_hazards.md R172 to R176). -/
structure System.Inv (sys : System) : Prop where
  core     : sys.core.Inv
  unticked : sys.ticked = false → sys.core.run = .running ∧ sys.core.pc = 0 ∧ sys.core.events = []

end Sys2Proof.Machine
end

