-- ==== Sys2Proof/Certificates/Slice0/Obligations.lean ====
section
/-! DEFINITION. The statements of this row. Each says which sentence of the spec it formalises; where it rests on a
choice, it names the log entry. A statement over states holds for every `MEM_SIZE`, `OPC_ST`, register, memory and
history the state may hold. -/

namespace Sys2Proof.Expected

open Sys2Proof.Machine

/-- The state after a fault, field by field (40_cycle.md R90): one report more, Halted, the cause; nothing else. -/
def faulted (s : State) (k : FaultKind) (opcode : Option Byte) (d : ReportDetail) : State :=
  { s with events := s.events ++ [.report k s.pc opcode d], run := .halted, haltCause := .fault k }

/-- The register file with one register replaced. -/
def withReg (x : Vector Byte 8) (d : RegIdx) (v : Byte) : Vector Byte 8 := x.set d v

/-- The first check that fails among those of a selector operand k with byte b (60_exceptions.md R145, 5 and 6). -/
def selectorFault (s : State) (k : Nat) (b : Byte) : Option (FaultKind × ReportDetail) :=
  if s.cfg.memSize ≤ s.pc + k then some (.memRange, .address (s.pc + k))
  else if 8 ≤ b.toNat then some (.badRegister, .selector b)
  else none

/-- The range check of an address (60_exceptions.md R145, 5 to 7). -/
def rangeFault (s : State) (a : Nat) : Option (FaultKind × ReportDetail) :=
  if s.cfg.memSize ≤ a then some (.memRange, .address a) else none

/-- The value of the register a byte selects, 0 where it selects none. -/
def regValue (s : State) (b : Byte) : Byte := if h : b.toNat < 8 then s.x[b.toNat] else 0

/-- The first failing check of each handler, in the order of 60_exceptions.md R145. -/
def firstFault (s : State) : Instr → Option (FaultKind × ReportDetail)
  | .halt              => none
  | .loadImmediate r _ => selectorFault s 1 r <|> rangeFault s (s.pc + 2)
  | .multiply rA rB    => selectorFault s 1 rA <|> selectorFault s 2 rB
  | .printRegister r   => selectorFault s 1 r
  | .store rA rB       => selectorFault s 1 rA <|> selectorFault s 2 rB <|> rangeFault s (regValue s rA).toNat

/-- The detail a report of each kind carries: none, a selector of 8 or more, an address outside memory
(60_exceptions.md R141). -/
def DetailFits (s : State) : FaultKind → ReportDetail → Prop
  | .invalidOpcode, d => d = .none
  | .badRegister, d   => ∃ b : Byte, d = .selector b ∧ 8 ≤ b.toNat
  | .memRange, d      => ∃ a : Nat, d = .address a ∧ s.cfg.memSize ≤ a

/-- Run state, cause and history as before, or one fault taken and nothing else done. -/
def QuietOrFaulted (s t : State) : Prop :=
  (t.run = s.run ∧ t.haltCause = s.haltCause ∧ t.events = s.events) ∨
  ∃ k d, t = faulted s k (some s.ir) d

/-- How many bytes a running tick reads from `pc` on (20_memory.md R45). -/
def bytesRead (s : State) : Nat :=
  match decodeOpcode s.cfg.opcST (s.mem.read s.pc) with
  | some h => h.width
  | none   => 1

/-- How many ticks a sequence of host moves requests, from a driver that is started or not: one for each `step`, and one
for each tick of the driver while it is started (70_reset_and_hazards.md R173). -/
def tickRequests : Bool → List HostMove → Nat
  | _, []                        => 0
  | _, .start :: ms              => tickRequests true ms
  | _, .stop :: ms               => tickRequests false ms
  | started, .step :: ms         => tickRequests started ms + 1
  | started, .driverTick :: ms   => tickRequests started ms + if started then 1 else 0
  | started, .poke _ _ :: ms     => tickRequests started ms
  | started, .raiseLines _ :: ms => tickRequests started ms
  | started, .observe :: ms      => tickRequests started ms

/-- A mnemonic of a handler, in the source's or the short spelling (30_encoding.md R65). -/
def Names (h : Handler) (name : List Char) : Prop := name = h.sourceName ∨ name = h.shortName

end Sys2Proof.Expected

open Sys2Proof Sys2Proof.Machine Sys2Proof.Expected

/-! ### Encoding and decoding -/

/-- The decoder accepts exactly the encodings: bytes decode to an instruction and a rest exactly when they are its
encoding followed by that rest, for every instruction, every operand byte and every admissible `OPC_ST`
(30_encoding.md, sections 1 to 3 and 5). -/
def Obligations.DecoderAcceptsExactlyTheEncodings : Prop :=
  ∀ opcST : Byte, admissibleStoreOpcode opcST = true → ∀ (bs rest : List Byte) (i : Instr),
    decode opcST bs = .instr i rest ↔ bs = encode opcST i ++ rest

/-- The words of 30_encoding.md section 1, written out, decode to the instructions they stand for, under every
admissible `OPC_ST`; 0xFF is no instruction. -/
def Obligations.SampleWordsDecode : Prop :=
  ∀ opcST : Byte, admissibleStoreOpcode opcST = true →
    decode opcST [0x04, 0x00, 0x08] = .instr (.loadImmediate 0 8) [] ∧
    decode opcST [0x05, 0x00, 0x01] = .instr (.multiply 0 1) [] ∧
    decode opcST [0x06, 0x00] = .instr (.printRegister 0) [] ∧
    decode opcST [0x1B] = .instr .halt [] ∧
    decode opcST [opcST, 0x00, 0x01] = .instr (.store 0 1) [] ∧
    decode opcST [0xFF] = .rejected (.invalidOpcode 0xFF)

/-- The dispatch table maps each opcode byte to one handler: no two of its rows have the same opcode, decoding is looking
the byte up in it, and each handler's own opcode decodes to it (30_encoding.md sections 3 and 5). -/
def Obligations.DispatchTableIsUnambiguous : Prop :=
  ∀ opcST : Byte, admissibleStoreOpcode opcST = true →
    (dispatchTable opcST).Pairwise (fun a b => a.1 ≠ b.1) ∧
    (∀ op : Byte, decodeOpcode opcST op = ((dispatchTable opcST).find? fun row => row.1 == op).map Prod.snd) ∧
    (∀ h : Handler, decodeOpcode opcST (h.opcode opcST) = some h)

/-- 30_encoding.md R67: exactly 251 of the 256 opcode byte values are invalid, all but the five; and fetching one raises
InvalidOpcode. -/
def Obligations.InvalidOpcodesAreTheOther251 : Prop :=
  ∀ c : Config, c.legal = true →
    ((List.range 256).filter fun n => decodeOpcode c.opcST (BitVec.ofNat 8 n) == none).length = 251 ∧
    (∀ op : Byte, decodeOpcode c.opcST op = none ↔ op ∉ [0x04, 0x05, 0x06, 0x1B, c.opcST]) ∧
    (∀ s : State, s.cfg = c → s.run = .running → s.pc < c.memSize →
      s.mem.read s.pc ∉ [0x04, 0x05, 0x06, 0x1B, c.opcST] →
      ∃ t, step s = .next t ∧ t.run = .halted ∧ t.haltCause = .fault .invalidOpcode)

/-! ### Reset -/

/-- After reset (70_reset_and_hazards.md section 1) with any `GPR_RESET`, `IR_RESET` and `MEM_INIT`, `pc` is 0, the mask is
`GPR_RESET(5)` and the pending set `GPR_RESET(6)`; the first tick fetches `mem[0]`, and the interrupt events of the
first tick are those of the lines set in `GPR_RESET(5) & GPR_RESET(6)`. That they and the `ir` load
stand where the first tick faults is the spec's decision D20 (log 12); that such a tick answers a next state is log 7. -/
def Obligations.ResetEntryPointAndFirstTick : Prop :=
  ∀ (c : Config) (p : ResetParams), c.legal = true →
    (State.resetWith c p).pc = 0 ∧
    (State.resetWith c p).im = p.gpr.get 5 ∧ (State.resetWith c p).is = p.gpr.get 6 ∧
    (State.resetWith c p).run = .running ∧ (State.resetWith c p).haltCause = .none ∧
    (State.resetWith c p).events = [] ∧
    ∃ t, step (State.resetWith c p) = .next t ∧ t.ir = p.mem.read 0 ∧
      ∀ i : Line, .interrupt i ∈ t.events ↔ (p.gpr.get 5 &&& p.gpr.get 6).getLsb i = true

/-! ### The tick -/

/-- 40_cycle.md R81: a tick requested while Halted has no effect. -/
def Obligations.HaltedTickHasNoEffect : Prop :=
  ∀ s : State, s.run = .halted → step s = .next s

/-- After the tick in which the core becomes Halted no tick changes anything; Halted is reached by HALT,
whose tick advances `pc` by 1, or by one of the three faults (40_cycle.md section 5). That HALT advances `pc` rests on
90_conflicts.md C1 (the spec's decision D27, log 9); that the faults are next states that halt is log 7. -/
def Obligations.HaltedIsTerminal : Prop :=
  ∀ s t : State, s.run = .running → step s = .next t → t.run = .halted →
    (∀ n, Sys2Proof.core.run n t = .next t) ∧
    ((t.haltCause = .haltInstr ∧ s.mem.read s.pc = 0x1B ∧ t.pc = s.pc + 1) ∨
      t.haltCause = .fault .invalidOpcode ∨ t.haltCause = .fault .badRegister ∨ t.haltCause = .fault .memRange)

/-- The events of a running tick, appended to the history: first one `Interrupt` for each line that is pending and enabled
at the start of the tick, ascending, then at most one event, which is no `Interrupt` (40_cycle.md sections 2 and 5). That
the lines come in ascending order is the spec's own reading (decision D11, log 10); that the events stand in a tick that
faults is its decision D20 (log 12). -/
def Obligations.TickEmitsMaskedLinesFirst : Prop :=
  ∀ s t : State, s.run = .running → step s = .next t →
    ∃ (lines : List Line) (es : List Event),
      t.events = s.events ++ lines.map .interrupt ++ es ∧
      (∀ i, i ∈ lines ↔ (s.reg 6 &&& s.reg 5).getLsb i = true) ∧ lines.Pairwise (· < ·) ∧
      es.length ≤ 1 ∧ ∀ i, Event.interrupt i ∉ es

/-- 60_exceptions.md R148: delivery changes no state: not `pc`, `state`, its cause, IM, `ir`, memory or any register but
R6; the history only grows. -/
def Obligations.DeliveryChangesNoState : Prop :=
  ∀ s : State,
    s.interruptCheck.pc = s.pc ∧ s.interruptCheck.run = s.run ∧ s.interruptCheck.haltCause = s.haltCause ∧
    s.interruptCheck.im = s.im ∧ s.interruptCheck.ir = s.ir ∧ s.interruptCheck.mem = s.mem ∧
    s.interruptCheck.cfg = s.cfg ∧
    (∀ i : RegIdx, i ≠ 6 → s.interruptCheck.reg i = s.reg i) ∧
    ∃ es, s.interruptCheck.events = s.events ++ es

/-- IS is 0 after every running tick, whatever the mask, unless the tick's instruction is LOAD-IMMEDIATE into R6
(40_cycle.md section 2; 90_conflicts.md C4, C5: the spec's decision D10, log 10). That the clear stands in a tick that
faults is its decision D20 (log 12). -/
def Obligations.StatusClearedUnlessLoaded : Prop :=
  ∀ s t : State, s.run = .running → step s = .next t →
    t.is = 0 ∨ (s.mem.read s.pc = 0x04 ∧ s.mem.read (s.pc + 1) = 6 ∧ t.is = s.mem.read (s.pc + 2))

/-- A running tick loads `ir` with the byte at `pc`; when `pc >= MEM_SIZE` it raises `MemRange(pc)`, `ir`
is unchanged and the tick ends (40_cycle.md section 3). That MEM_RANGE is a next state that halts is log 7 (decision D5);
that step 1 stands, and the load where the tick faults later, is the spec's decision D20 (log 12). -/
def Obligations.FetchLoadsInstructionRegister : Prop :=
  ∀ s : State, s.run = .running →
    (s.pc < s.cfg.memSize → ∃ t, step s = .next t ∧ t.ir = s.mem.read s.pc) ∧
    (s.cfg.memSize ≤ s.pc →
      step s = .next (faulted s.interruptCheck .memRange none (.address s.pc)) ∧
      (faulted s.interruptCheck .memRange none (.address s.pc)).ir = s.ir)

/-- When the fetched opcode has no handler, the tick reports the faulting address and opcode, halts, and
does nothing more: `pc` keeps the address of the invalid opcode (40_cycle.md section 3). That step 1 and the `ir` load
stand is the spec's decision D20 (90_conflicts.md C6, log 12). -/
def Obligations.InvalidOpcodeFaultPath : Prop :=
  ∀ s : State, s.run = .running → s.pc < s.cfg.memSize →
    decodeOpcode s.cfg.opcST (s.mem.read s.pc) = none →
    step s = .next (faulted { s.interruptCheck with ir := s.mem.read s.pc } .invalidOpcode
      (some (s.mem.read s.pc)) .none) ∧
    (faulted { s.interruptCheck with ir := s.mem.read s.pc } .invalidOpcode (some (s.mem.read s.pc)) .none).pc = s.pc

/-- A tick runs the decoded instruction: when the core is Running and the bytes at `pc` decode to an instruction, the tick is
that instruction's meaning in the state after the interrupt check, with the opcode in `ir` and `pc` still at the
opcode (40_cycle.md section 5). That the interrupt check and the load stand where the instruction then faults is the
spec's decision D20 (log 12). -/
def Obligations.TickRunsTheDecodedInstruction : Prop :=
  ∀ (s : State) (i : Instr) (rest : List Byte), s.run = .running → s.pc < s.cfg.memSize →
    decode s.cfg.opcST [s.mem.read s.pc, s.mem.read (s.pc + 1), s.mem.read (s.pc + 2)] = .instr i rest →
    step s = exec i { s.interruptCheck with ir := s.mem.read s.pc }

/-- Every tick answers a next state: the core never stops but in its own Halted state (40_cycle.md section 5). That a tick
that raises BAD_REGISTER or MEM_RANGE answers one too, and no model fault, is the model's choice: log 7, where
`State.observeRun` is what reads such a run as faulted. -/
def Obligations.EveryTickAnswersNext : Prop :=
  ∀ s : State, ∃ t, step s = .next t

/-- Faults are the only traps, and precise (60_exceptions.md section 3). When a running tick halts the core on a fault, the state
is the state at the start of the tick with the step-1 effects (`Interrupt` events and R6 cleared), `ir` when the fetch
succeeded, the report, and Halted with its cause. The report's detail is the selector (8 or more) or the address
(outside memory) that failed. That step 1 and the `ir` load stand is the spec's decision D20 (90_conflicts.md C6, log
12); that a fault is a next state that halts is log 7. -/
def Obligations.FaultsArePrecise : Prop :=
  (∀ s : State, ∃ lines : List Line,
    s.interruptCheck = { s with x := withReg s.x 6 0, events := s.events ++ lines.map .interrupt }) ∧
  (∀ s t : State, s.run = .running → step s = .next t → t.run = .halted →
    t.haltCause = .haltInstr ∨ ∃ k, t.haltCause = .fault k) ∧
  ∀ (s t : State) (k : FaultKind), s.run = .running → s.haltCause = .none → step s = .next t →
    t.haltCause = .fault k →
    ∃ d, t = faulted
        (if s.pc < s.cfg.memSize then { s.interruptCheck with ir := s.mem.read s.pc } else s.interruptCheck)
        k (if s.pc < s.cfg.memSize then some (s.mem.read s.pc) else none) d ∧
      DetailFits s k d

/-- A handler that completes advances `pc` by its width, and nothing else moves `pc`; a handler that raises
a fault does not advance it. The widths: HALT 1, PRINT-REGISTER 2, the others 3 (40_cycle.md section 4).
That HALT advances `pc` rests on 90_conflicts.md C1 (the spec's decision D27, log 9); that a fault is a next state is
log 7. -/
def Obligations.HandlerAdvancesByWidth : Prop :=
  Handler.halt.width = 1 ∧ Handler.printRegister.width = 2 ∧ Handler.loadImmediate.width = 3 ∧
  Handler.multiply.width = 3 ∧ Handler.store.width = 3 ∧
  ∀ (s t : State) (h : Handler), s.run = .running → s.haltCause = .none → s.pc < s.cfg.memSize →
    decodeOpcode s.cfg.opcST (s.mem.read s.pc) = some h → step s = .next t →
    ((∀ k, t.haltCause ≠ .fault k) → t.pc = s.pc + h.width) ∧
    (∀ k, t.haltCause = .fault k → t.pc = s.pc)

/-! ### The instructions -/

/-- HALT halts with cause HALT_INSTR and advances `pc` by 1, and changes nothing else (41_control.md). That HALT advances
`pc` rests on 90_conflicts.md C1 (decision D27, log 9). -/
def Obligations.HaltResult : Prop :=
  ∀ s : State, exec .halt s = .next { s with run := .halted, haltCause := .haltInstr, pc := s.pc + 1 }

/-- LOAD-IMMEDIATE (42_load_store.md): its bytes, its result for every selector 0 to 7 and every immediate, and its
exceptions in their order. The order of the checks is the spec's decision D21 (log 11); that BAD_REGISTER and MEM_RANGE
are next states that halt is log 7. -/
def Obligations.LoadImmediateResult : Prop :=
  ∀ (r imm : Byte) (s : State),
    (∀ opcST : Byte, encode opcST (.loadImmediate r imm) = [0x04, r, imm]) ∧
    (∀ d : RegIdx, d.val = r.toNat → s.pc + 2 < s.cfg.memSize →
      exec (.loadImmediate r imm) s = .next { s with x := withReg s.x d imm, pc := s.pc + 3 }) ∧
    (s.cfg.memSize ≤ s.pc + 1 →
      exec (.loadImmediate r imm) s = .next (faulted s .memRange (some s.ir) (.address (s.pc + 1)))) ∧
    (s.pc + 1 < s.cfg.memSize → 8 ≤ r.toNat →
      exec (.loadImmediate r imm) s = .next (faulted s .badRegister (some s.ir) (.selector r))) ∧
    (s.pc + 1 < s.cfg.memSize → r.toNat < 8 → s.cfg.memSize ≤ s.pc + 2 →
      exec (.loadImmediate r imm) s = .next (faulted s .memRange (some s.ir) (.address (s.pc + 2))))

/-- 43_alu.md R123: MULTIPLY writes the product modulo 256 to its first register; overflow is silent: no fault, flag or event
records it, and nothing else changes. -/
def Obligations.MultiplyWrapsSilently : Prop :=
  ∀ (rA rB : Byte) (s : State) (a b : RegIdx), a.val = rA.toNat → b.val = rB.toNat →
    s.pc + 2 < s.cfg.memSize →
    exec (.multiply rA rB) s =
      .next { s with x := withReg s.x a (BitVec.ofNat 8 (((s.reg a).toNat * (s.reg b).toNat) % 256)), pc := s.pc + 3 }

/-- STORE writes the value of its second register at the address in its first, and advances `pc` by 3; no register and no
other byte changes, and memory keeps its canonical form (42_load_store.md). -/
def Obligations.StoreResult : Prop :=
  ∀ (rA rB : Byte) (s : State) (a b : RegIdx), a.val = rA.toNat → b.val = rB.toNat →
    s.pc + 2 < s.cfg.memSize → (s.reg a).toNat < s.cfg.memSize → s.mem.wf = true →
    ∃ m : Memory, exec (.store rA rB) s = .next { s with mem := m, pc := s.pc + 3 } ∧ m.wf = true ∧
      ∀ c, m.read c = if c = (s.reg a).toNat then s.reg b else s.mem.read c

/-- PRINT-REGISTER emits its register's value as one `Output` and advances `pc` by 2; nothing else changes
(44_output.md). -/
def Obligations.PrintRegisterResult : Prop :=
  ∀ (r : Byte) (s : State) (d : RegIdx), d.val = r.toNat → s.pc + 1 < s.cfg.memSize →
    exec (.printRegister r) s = .next { s with events := s.events ++ [.output (s.reg d)], pc := s.pc + 2 }

/-- A handler raises the first check that fails, in the order operand 1, operand 2, STORE's address, each operand's range
before its selector; when none fails it completes and advances `pc` by its width (60_exceptions.md section 1). The order
is the spec's decision D21 (log 11); that HALT advances `pc` rests on 90_conflicts.md C1 (decision D27, log 9); that
BAD_REGISTER and MEM_RANGE are next states that halt is log 7. -/
def Obligations.FirstFailingCheckIsRaised : Prop :=
  ∀ (i : Instr) (s : State),
    (∀ k d, firstFault s i = some (k, d) → exec i s = .next (faulted s k (some s.ir) d)) ∧
    (firstFault s i = none → ∃ t, exec i s = .next t ∧ t.pc = s.pc + i.width ∧
      t.haltCause = if i = .halt then .haltInstr else s.haltCause)

/-- Writing R5 writes the mask and writing R6 the status: LOAD-IMMEDIATE and MULTIPLY, with R5 or R6 as their first operand
and any second operand, set IM or IS and leave the other (10_state.md section 2; 42_load_store.md; 43_alu.md). -/
def Obligations.MaskAndStatusAreRegisters : Prop :=
  ∀ (v : Byte) (s : State), s.pc + 2 < s.cfg.memSize →
    (∃ t, exec (.loadImmediate 5 v) s = .next t ∧ t.im = v ∧ t.is = s.is) ∧
    (∃ t, exec (.loadImmediate 6 v) s = .next t ∧ t.is = v ∧ t.im = s.im) ∧
    ∀ (rB : Byte) (b : RegIdx), b.val = rB.toNat →
      (∃ t, exec (.multiply 5 rB) s = .next t ∧ t.im = BitVec.ofNat 8 (s.im.toNat * (s.reg b).toNat % 256) ∧
        t.is = s.is) ∧
      (∃ t, exec (.multiply 6 rB) s = .next t ∧ t.is = BitVec.ofNat 8 (s.is.toNat * (s.reg b).toNat % 256) ∧
        t.im = s.im)

/-- The ALU's multiply is the low byte of the exact 16-bit product, is commutative, and gives the same byte when the
operands are read as signed (43_alu.md; the signed reading is the spec's own remark). -/
def Obligations.MultiplyIsLowByteOfProduct : Prop :=
  ∀ a b : Byte,
    alu .mul a b = (a.zeroExtend 16 * b.zeroExtend 16).extractLsb' 0 8 ∧
    alu .mul a b = alu .mul b a ∧
    alu .mul a b = BitVec.ofInt 8 (a.toInt * b.toInt) ∧
    (alu .mul a b).toNat = (a.toNat * b.toNat) % 256

/-! ### Frames -/

/-- Frame of LOAD-IMMEDIATE and MULTIPLY: every register but the first operand's, every byte of memory, `ir` and the
parameters are unchanged; run state, cause and history too, unless a fault was taken, which does nothing else
(log 7: a fault is a next state). -/
def Obligations.RegisterWriteFrame : Prop :=
  ∀ (r q : Byte) (s t : State),
    exec (.loadImmediate r q) s = .next t ∨ exec (.multiply r q) s = .next t →
    (∀ j : RegIdx, j.val ≠ r.toNat → t.reg j = s.reg j) ∧ (∀ a, t.mem.read a = s.mem.read a) ∧
    t.cfg = s.cfg ∧ t.ir = s.ir ∧ QuietOrFaulted s t

/-- Frame of HALT and PRINT-REGISTER: every register, every byte of memory, `ir` and the parameters are unchanged; HALT
emits nothing; PRINT-REGISTER emits one `Output`, of its register's value, and leaves run state and cause, unless a
fault was taken, which does nothing else (log 7). -/
def Obligations.HaltAndPrintFrame : Prop :=
  ∀ (r : Byte) (s t : State),
    (exec .halt s = .next t → t.x = s.x ∧ (∀ a, t.mem.read a = s.mem.read a) ∧ t.cfg = s.cfg ∧ t.ir = s.ir ∧
      t.events = s.events) ∧
    (exec (.printRegister r) s = .next t → t.x = s.x ∧ (∀ a, t.mem.read a = s.mem.read a) ∧ t.cfg = s.cfg ∧
      t.ir = s.ir ∧
      ((t.run = s.run ∧ t.haltCause = s.haltCause ∧
          ∃ d : RegIdx, d.val = r.toNat ∧ t.events = s.events ++ [.output (s.reg d)]) ∨
        ∃ k d, t = faulted s k (some s.ir) d))

/-- Frame of STORE: every register, `ir` and the parameters are unchanged; every byte of memory is, except the one byte at
the address in the first operand's register; run state, cause and history too, unless a fault was taken, which does
nothing else (log 7). -/
def Obligations.StoreFrame : Prop :=
  ∀ (rA rB : Byte) (s t : State), exec (.store rA rB) s = .next t →
    t.x = s.x ∧ t.cfg = s.cfg ∧ t.ir = s.ir ∧ QuietOrFaulted s t ∧
    (∀ a : RegIdx, a.val = rA.toNat → ∀ c, c ≠ s.storeAddress a → t.mem.read c = s.mem.read c) ∧
    (8 ≤ rA.toNat → ∀ c, t.mem.read c = s.mem.read c)

/-! ### Whole-machine rules -/

/-- Only STORE writes memory: where a tick changes a byte, the opcode at `pc` is `OPC_ST`, the byte's address is below 256
and is the value of the first operand's register after the interrupt check, and the byte is the second's
(20_memory.md sections 2 and 3). -/
def Obligations.OnlyStoreWritesMemory : Prop :=
  ∀ (s t : State) (c : Nat), s.mem.wf = true → step s = .next t → t.mem.read c ≠ s.mem.read c →
    s.mem.read s.pc = s.cfg.opcST ∧ c < 256 ∧
    ∃ a b : RegIdx, a.val = (s.mem.read (s.pc + 1)).toNat ∧ b.val = (s.mem.read (s.pc + 2)).toNat ∧
      c = (s.interruptCheck.reg a).toNat ∧ t.mem.read c = s.interruptCheck.reg b

/-- No instruction reads data memory: two cores that differ only in bytes outside the current instruction's own have the
same registers, `pc`, `ir`, run state, cause and history after the tick (20_memory.md section 2). -/
def Obligations.TickReadsOnlyItsOwnBytes : Prop :=
  ∀ (s : State) (m : Memory) (t u : State),
    (∀ k, k < bytesRead s → m.read (s.pc + k) = s.mem.read (s.pc + k)) →
    step s = .next t → step { s with mem := m } = .next u →
    u.x = t.x ∧ u.pc = t.pc ∧ u.ir = t.ir ∧ u.run = t.run ∧ u.haltCause = t.haltCause ∧ u.events = t.events

/-- A STORE into the next instruction's opcode is seen by the very next tick: the byte fetched there is the stored value,
and when that is HALT's opcode, the next tick halts (20_memory.md section 4). -/
def Obligations.StoreIsSeenByNextFetch : Prop :=
  ∀ (s : State) (a b : RegIdx), s.run = .running → s.mem.wf = true → admissibleStoreOpcode s.cfg.opcST = true →
    s.mem.read s.pc = s.cfg.opcST → (s.mem.read (s.pc + 1)).toNat = a.val → (s.mem.read (s.pc + 2)).toNat = b.val →
    s.pc + 3 < s.cfg.memSize → (s.interruptCheck.reg a).toNat = s.pc + 3 →
    ∃ t u, step s = .next t ∧ step t = .next u ∧ t.pc = s.pc + 3 ∧ u.ir = s.interruptCheck.reg b ∧
      (s.interruptCheck.reg b = 0x1B → u.run = .halted ∧ u.haltCause = .haltInstr)

/-- A handler always reads R6 as 0, since step 1 has cleared it: PRINT-REGISTER of R6 outputs 0, a product with R6 is 0, and
STORE with R6 as address stores at address 0, with R6 as value stores 0 (42_load_store.md, 43_alu.md, 44_output.md,
corner cases, which the spec derives). That step 1 clears R6 whatever the mask is the spec's decision D10 (log 10). -/
def Obligations.HandlersReadStatusAsZero : Prop :=
  ∀ s : State, s.run = .running → s.pc + 2 < s.cfg.memSize → s.mem.wf = true →
    admissibleStoreOpcode s.cfg.opcST = true →
    (s.mem.read s.pc = 0x06 → s.mem.read (s.pc + 1) = 6 →
      ∃ t, step s = .next t ∧ t.events.getLast? = some (.output 0)) ∧
    (∀ a b : RegIdx, s.mem.read s.pc = 0x05 → (s.mem.read (s.pc + 1)).toNat = a.val →
      (s.mem.read (s.pc + 2)).toNat = b.val → a = 6 ∨ b = 6 → ∃ t, step s = .next t ∧ t.reg a = 0) ∧
    (∀ b : RegIdx, s.mem.read s.pc = s.cfg.opcST → s.mem.read (s.pc + 1) = 6 →
      (s.mem.read (s.pc + 2)).toNat = b.val →
      ∃ t, step s = .next t ∧ t.mem.read 0 = s.interruptCheck.reg b) ∧
    (∀ a : RegIdx, s.mem.read s.pc = s.cfg.opcST → (s.mem.read (s.pc + 1)).toNat = a.val →
      s.mem.read (s.pc + 2) = 6 → (s.interruptCheck.reg a).toNat < s.cfg.memSize →
      ∃ t, step s = .next t ∧ t.mem.read (s.interruptCheck.reg a).toNat = 0)

/-- Pending bits that a program loads into R6 are delivered by the next tick, those that IM enables and no others
(60_exceptions.md section 2; 42_load_store.md). The two ticks run with the host raising no line between them, the spec's
premise NoExternalIrq (decision D12, log 13). -/
def Obligations.LoadedStatusIsDeliveredNextTick : Prop :=
  ∀ s : State, s.run = .running → s.pc + 2 < s.cfg.memSize →
    s.mem.read s.pc = 0x04 → s.mem.read (s.pc + 1) = 6 →
    ∃ t u, step s = .next t ∧ step t = .next u ∧
      ∀ i : Line, .interrupt i ∈ u.events.drop t.events.length ↔ (s.mem.read (s.pc + 2) &&& s.im).getLsb i = true

/-- No tick and no sequence of host moves changes the parameters `MEM_SIZE` and `OPC_ST` (10_state.md section 1; the MODEL's
own field, log 1). -/
def Obligations.ParametersNeverChange : Prop :=
  (∀ s t : State, step s = .next t → t.cfg = s.cfg) ∧
  ∀ (ms : List HostMove) (sys sys' : System), System.moves ms sys = .next sys' → sys'.core.cfg = sys.core.cfg

/-- Every tick keeps the invariant: legal parameters, canonical memory inside `MEM_SIZE`, `pc` at most `MEM_SIZE`, Running
exactly when the cause is NONE, and one report in the history exactly when a fault halted the core, of its kind. -/
def Obligations.TickKeepsInvariant : Prop :=
  ∀ s t : State, s.Inv → step s = .next t → t.Inv

/-- Reset establishes the invariant, for every legal parameter and every canonical `MEM_INIT` inside memory; so does the
model's own `State.reset` (its values are named in logs 2 to 6). -/
def Obligations.ResetEstablishesInvariant : Prop :=
  (∀ (c : Config) (p : ResetParams), c.legal = true → p.mem.wf = true → p.mem.below c.memSize = true →
    (State.resetWith c p).Inv) ∧
  State.reset.Inv

/-- Every run ends: from any state with `pc` at most `MEM_SIZE`, running more than `MEM_SIZE - pc` ticks (at most
`MEM_SIZE + 1` from address 0) halts the core (70_reset_and_hazards.md section 6, which derives it). The ticks run with no
line raised between them, the spec's premise NoExternalIrq (log 13; EveryDrivenRunHalts has no such premise), and an end
by BAD_REGISTER or MEM_RANGE, which the spec calls a model fault, counts as Halted (log 7). -/
def Obligations.EveryRunHalts : Prop :=
  ∀ (s : State) (n : Nat), s.pc ≤ s.cfg.memSize → s.cfg.memSize - s.pc < n →
    ∃ t, Sys2Proof.core.run n s = .next t ∧ t.run = .halted

/-- Reading a run's end: HALT and INVALID_OPCODE are results; BAD_REGISTER and MEM_RANGE are model faults, so the end state
is no result; a Running core has not ended (70_reset_and_hazards.md section 6; log 7). -/
def Obligations.ModelFaultsAreNoResults : Prop :=
  ∀ s : State,
    (s.run = .running → s.runEnd = none ∧ s.observeRun = .next s) ∧
    (s.run = .halted →
      (s.haltCause = .haltInstr → s.runEnd = some .normal ∧ s.observeRun = .next s) ∧
      (s.haltCause = .fault .invalidOpcode → s.runEnd = some .invalidOpcode ∧ s.observeRun = .next s) ∧
      (s.haltCause = .fault .badRegister → s.observeRun = .fault .badRegister) ∧
      (s.haltCause = .fault .memRange → s.observeRun = .fault .memRange))

/-! ### The host -/

/-- `RaiseLines(m)` sets pending bits while Running and nothing else, and has no effect while Halted
(70_reset_and_hazards.md section 3; the spec's model of the lines, decision D12, log 13). -/
def Obligations.RaiseLinesSetsPending : Prop :=
  ∀ (sys : System) (m : Byte),
    (sys.core.run = .running → sys.move (.raiseLines m) =
      .next { sys with core := { sys.core with x := withReg sys.core.x 6 (sys.core.reg 6 ||| m) } }) ∧
    (sys.core.run = .halted → sys.move (.raiseLines m) = .next sys)

/-- `poke` writes one byte of memory before the first tick, and is refused after it and outside memory
(70_reset_and_hazards.md section 3; decisions D5 and D26, log 15). -/
def Obligations.PokeOnlyBeforeFirstTick : Prop :=
  ∀ (sys : System) (a : Nat) (v : Byte),
    (sys.ticked = false → a < sys.core.cfg.memSize → sys.core.mem.wf = true →
      ∃ m : Memory, sys.move (.poke a v) = .next { sys with core := { sys.core with mem := m } } ∧
        ∀ c, m.read c = if c = a then v else sys.core.mem.read c) ∧
    (sys.ticked = true → sys.move (.poke a v) = .refused .pokeAfterFirstTick) ∧
    (sys.ticked = false → sys.core.cfg.memSize ≤ a → sys.move (.poke a v) = .refused .pokeOutOfRange)

/-- `start` and `stop` set the driver's flag, change nothing else and are idempotent; observing changes nothing; `step` is
one tick, after which a tick has been requested; the driver ticks only while started (70_reset_and_hazards.md section 3;
the spec's decision D14; the host's two flags are the model's, log 15). -/
def Obligations.DriverControlsOnlyTicking : Prop :=
  ∀ (sys : System) (t : State), step sys.core = .next t →
    System.moves [.start, .start] sys = sys.move .start ∧ System.moves [.stop, .stop] sys = sys.move .stop ∧
    sys.move .start = .next { sys with started := true } ∧
    sys.move .stop = .next { sys with started := false } ∧
    sys.move .observe = .next sys ∧
    sys.move .step = .next { core := t, ticked := true, started := sys.started } ∧
    (sys.started = true → sys.move .driverTick = .next { core := t, ticked := true, started := true }) ∧
    (sys.started = false → sys.move .driverTick = .next sys)

/-- The boot sequence leaves the image in memory from address 0, every other byte as `MEM_INIT`, the core as reset left it
and no tick requested (70_reset_and_hazards.md section 2). -/
def Obligations.BootLoadsTheImage : Prop :=
  ∀ (c : Config) (p : ResetParams) (image : List Byte), p.mem.wf = true → image.length ≤ c.memSize →
    ∃ m : Memory,
      System.moves (bootMoves image) (System.construct c p) =
        .next { core := { State.resetWith c p with mem := m }, ticked := false, started := true } ∧
      m.wf = true ∧ ∀ a, m.read a = if h : a < image.length then image[a] else p.mem.read a

/-- Every host move keeps the invariant of the core with its host. -/
def Obligations.HostMoveKeepsInvariant : Prop :=
  ∀ (sys sys' : System) (m : HostMove), sys.Inv → sys.move m = .next sys' → sys'.Inv

/-- The system right after construction meets that invariant. -/
def Obligations.ConstructionEstablishesInvariant : Prop :=
  ∀ (c : Config) (p : ResetParams), c.legal = true → p.mem.wf = true → p.mem.below c.memSize = true →
    (System.construct c p).Inv

/-- Nothing the host can do, short of reset, changes a Halted core: no tick, no `start`, no line, no `poke`
(60_exceptions.md section 4; 70_reset_and_hazards.md section 3). -/
def Obligations.NothingWakesHaltedCore : Prop :=
  ∀ (ms : List HostMove) (sys sys' : System), sys.Inv → sys.core.run = .halted →
    System.moves ms sys = .next sys' → sys'.core = sys.core

/-- Every run ends under every interleaving of host moves, interrupt lines raised at will among them: once more than
`MEM_SIZE - pc` ticks have been requested, by single steps or by the started driver, the core is Halted
(70_reset_and_hazards.md sections 3, 5 and 6). The fair driver is the premise on the count (log 19); an end by BAD_REGISTER
or MEM_RANGE counts as Halted (log 7). -/
def Obligations.EveryDrivenRunHalts : Prop :=
  ∀ (ms : List HostMove) (sys sys' : System), sys.core.pc ≤ sys.core.cfg.memSize →
    System.moves ms sys = .next sys' → sys.core.cfg.memSize - sys.core.pc < tickRequests sys.started ms →
    sys'.core.run = .halted

/-! ### Text -/

/-- The sink shows an output as its decimal digits and one newline, with no leading zero, sign or padding
(44_output.md; the spec's decision D23, log 17). -/
def Obligations.OutputTextIsPlainDecimal : Prop :=
  ∀ v : Byte, ∃ ds : List Char, renderOutput v = ds ++ ['\n'] ∧ digitsValue 10 0 ds = some v.toNat ∧
    ds ≠ [] ∧ (ds.length = 1 ∨ ds.head? ≠ some '0')

/-- Assembling an instruction's text, in the source's or the short spelling, gives the instruction back when it is
well-formed, and is rejected when a register number is above 7; whatever assembles is well-formed. A line is rejected
when the number of its immediate is above 255, or is no number, whatever its first operand; and when a register operand,
first or second, has a number above 7, however large (30_encoding.md section 4; decision D24, log 18). -/
def Obligations.AssemblerReadsBackText : Prop :=
  (∀ i : Instr,
    assemble i.asmText = (if i.wellFormed then some i else none) ∧
    assemble (i.handler.shortName ++ i.operandText) = (if i.wellFormed then some i else none)) ∧
  (∀ (cs : List Char) (i : Instr), assemble cs = some i → i.wellFormed = true) ∧
  (∀ (name fst imm : List Char) (spaces : Nat), Names .loadImmediate name → imm.head? ≠ some ' ' →
    (∀ n, parseNumber imm = some n → 256 ≤ n) →
    assemble (name ++ ' ' :: fst ++ ',' :: (List.replicate spaces ' ' ++ imm)) = none) ∧
  ∀ (h : Handler) (name ds : List Char) (n : Nat), Names h name → digitsValue 10 0 ds = some n → 8 ≤ n →
    assemble (name ++ ' ' :: 'r' :: ds) = none ∧
    (∀ snd, assemble (name ++ ' ' :: 'r' :: ds ++ ',' :: snd) = none) ∧
    ∀ (fst : List Char) (spaces : Nat),
      assemble (name ++ ' ' :: fst ++ ',' :: (List.replicate spaces ' ' ++ 'r' :: ds)) = none
end

