-- ==== Sys2Proof/Laws/Asm.lean ====
section
/-! SUPPORT. What each parser of the assembly syntax can answer, said once. -/

namespace Sys2Proof

/-- Text without the separator, then the separator: split there. -/
theorem splitAtChar_append {sep : Char} {xs : List Char} (h : sep ∉ xs) (ys : List Char) :
    splitAtChar sep (xs ++ sep :: ys) = some (xs, ys) := by
  induction xs with
  | nil => simp [splitAtChar]
  | cons x xs ih =>
    have hx : x ≠ sep := fun e => h (e ▸ List.mem_cons_self ..)
    simp [splitAtChar, hx, ih fun e => h (List.mem_cons_of_mem _ e)]

/-- Digits with a character among them that is no digit have no value. -/
theorem digitsValue_eq_none {base : Nat} {c : Char} (hc : digitValue base c = none) {cs : List Char} (h : c ∈ cs)
    (acc : Nat) : digitsValue base acc cs = none := by
  induction cs generalizing acc with
  | nil => cases h
  | cons d ds ih =>
    rcases List.mem_cons.1 h with rfl | h
    · simp [digitsValue, hc]
    · simp only [digitsValue]
      split
      · exact ih h _
      · rfl

/-- Text with a character that is no digit, nor the `x` of `0x`, is no number. -/
theorem parseNumber_eq_none {c : Char} (h16 : digitValue 16 c = none) (h10 : digitValue 10 c = none) (hx : c ≠ 'x')
    {cs : List Char} (h : c ∈ cs) : parseNumber cs = none := by
  unfold parseNumber
  split
  · rfl
  · next d ds =>
    have h0 : c ≠ '0' := by rintro rfl; revert h10; decide
    simp only [List.mem_cons, h0, hx, false_or] at h
    exact digitsValue_eq_none h16 (List.mem_cons.2 h) 0
  · exact digitsValue_eq_none h10 h 0

theorem parseImm_eq_none {c : Char} (h16 : digitValue 16 c = none) (h10 : digitValue 10 c = none) (hx : c ≠ 'x')
    {cs : List Char} (h : c ∈ cs) : parseImm cs = none := by
  simp [parseImm, parseNumber_eq_none h16 h10 hx h]

/-- Text with a character other than `r` that is no digit is no register. -/
theorem parseReg_eq_none {c : Char} (h10 : digitValue 10 c = none) (hr : c ≠ 'r') {cs : List Char} (h : c ∈ cs) :
    parseReg cs = none := by
  unfold parseReg
  split
  · next d ds =>
    simp only [List.mem_cons, hr, false_or] at h
    rw [digitsValue_eq_none h10 (List.mem_cons.2 h)]
  · rfl

/-- Every register that is read has a number up to 7. -/
theorem parseReg_lt {cs : List Char} {b : Byte} (h : parseReg cs = some b) : b.toNat < 8 := by
  unfold parseReg at h
  split at h
  · split at h
    · split at h
      · next n _ hn =>
        injection h with h
        rw [← h, BitVec.toNat_ofNat]
        omega
      · cases h
    · cases h
  · cases h

/-- The one inversion of the assembler: the mnemonic and the operands it read. -/
theorem assemble_cases {cs : List Char} {i : Instr} (h : assemble cs = some i) :
    i = .halt ∨ ∃ m ops k, splitAtChar ' ' cs = some (m, ops) ∧ parseMnemonic m = some k ∧
      parseOperands k ops = some i := by
  unfold assemble at h
  split at h
  · next m ops hs =>
    obtain ⟨k, hk, ho⟩ := Option.bind_eq_some_iff.1 h
    exact .inr ⟨m, ops, k, hs, hk, ho⟩
  · split at h
    · injection h with h; exact .inl h.symm
    · cases h

/-- A mnemonic, a space and operands: the handler's operands. -/
theorem assemble_name {k : Handler} {name : List Char} (h : name = k.sourceName ∨ name = k.shortName)
    (ops : List Char) : assemble (name ++ ' ' :: ops) = parseOperands k ops := by
  have hs : ' ' ∉ name := by rcases h with rfl | rfl <;> cases k <;> decide
  have hm : parseMnemonic name = some k := by rcases h with rfl | rfl <;> cases k <;> decide
  simp [assemble, splitAtChar_append hs, hm]

end Sys2Proof
end

