-- ==== Sys2Proof/Laws/Decode.lean ====
section
/-! SUPPORT. Laws of the dispatch table and the parameters (30_encoding.md R65, R66, R71). -/

namespace Sys2Proof

theorem admissibleStoreOpcode_iff (b : Byte) : admissibleStoreOpcode b = true ↔
    b ≠ 0x04 ∧ b ≠ 0x05 ∧ b ≠ 0x06 ∧ b ≠ 0x1B ∧ b ≠ 0xFF := by
  simp [admissibleStoreOpcode, and_assoc]

theorem storeOpcodeOfSlot_admissible (k : Fin 251) : admissibleStoreOpcode (storeOpcodeOfSlot k) = true := by
  have hk := k.isLt
  rw [admissibleStoreOpcode_iff]
  unfold storeOpcodeOfSlot
  split_ifs <;> refine ⟨?_, ?_, ?_, ?_, ?_⟩ <;> bv_omega

theorem resetConfig_legal : resetConfig.legal = true := by
  simp [Config.legal, resetConfig, storeOpcodeOfSlot_admissible]

/-- What the dispatch table can answer. -/
theorem decodeOpcode_cases (opcST op : Byte) :
    (∃ h, decodeOpcode opcST op = some h ∧ op = h.opcode opcST) ∨
    (decodeOpcode opcST op = none ∧ op ≠ 0x1B ∧ op ≠ 0x04 ∧ op ≠ 0x05 ∧ op ≠ 0x06 ∧ op ≠ opcST) := by
  unfold decodeOpcode
  split_ifs with h1 h2 h3 h4 h5
  · exact .inl ⟨_, rfl, h1⟩
  · exact .inl ⟨_, rfl, h2⟩
  · exact .inl ⟨_, rfl, h3⟩
  · exact .inl ⟨_, rfl, h4⟩
  · exact .inl ⟨_, rfl, h5⟩
  · exact .inr ⟨rfl, h1, h2, h3, h4, h5⟩

/-- Each handler's opcode byte decodes to it, for an admissible `OPC_ST`. -/
theorem decodeOpcode_opcode {opcST : Byte} (h : admissibleStoreOpcode opcST = true) (k : Handler) :
    decodeOpcode opcST (k.opcode opcST) = some k := by
  obtain ⟨h4, h5, h6, hB, _⟩ := (admissibleStoreOpcode_iff _).1 h
  cases k with
  | halt => rfl
  | loadImmediate => rfl
  | multiply => rfl
  | printRegister => rfl
  | store =>
    show decodeOpcode opcST opcST = some .store
    unfold decodeOpcode
    rw [if_neg hB, if_neg h4, if_neg h5, if_neg h6, if_pos rfl]

end Sys2Proof
end

