-- ==== Sys2Proof/Laws/Memory.lean ====
section
/-! SUPPORT. Laws of memory: read after write, the canonical form, and that it determines the list
(20_memory.md R41, R49). -/

namespace Sys2Proof.Machine

@[simp] theorem Memory.read_nil (a : Nat) : Memory.read [] a = Memory.unlisted a := rfl

@[simp] theorem Memory.read_entry (b : Nat) (w : Byte) (m : Memory) (a : Nat) :
    Memory.read ((b, w) :: m) a = if b = a then w else Memory.read m a := rfl

theorem Memory.wfFrom_entry (lo a : Nat) (v : Byte) (m : Memory) :
    Memory.wfFrom lo ((a, v) :: m) = true ↔
      lo ≤ a ∧ v ≠ Memory.unlisted a ∧ Memory.wfFrom (a + 1) m = true := by
  simp [Memory.wfFrom, and_assoc]

theorem Memory.wfFrom_weaken {lo lo' : Nat} {m : Memory} (h : lo' ≤ lo) (hm : Memory.wfFrom lo m = true) :
    Memory.wfFrom lo' m = true := by
  cases m with
  | nil => rfl
  | cons c m =>
    obtain ⟨a, v⟩ := c
    rw [Memory.wfFrom_entry] at hm ⊢
    exact ⟨h.trans hm.1, hm.2⟩

/-- Below its first address a canonical memory lists nothing. -/
theorem Memory.read_of_lt {lo a : Nat} {m : Memory} (hm : Memory.wfFrom lo m = true) (h : a < lo) :
    m.read a = Memory.unlisted a := by
  induction m generalizing lo with
  | nil => rfl
  | cons c m ih =>
    obtain ⟨b, w⟩ := c
    rw [Memory.wfFrom_entry] at hm
    rw [Memory.read_entry, if_neg (by omega), ih hm.2.2 (by omega)]

theorem Memory.read_cons {a : Nat} {m : Memory} (hm : Memory.wfFrom (a + 1) m = true) (v : Byte) (c : Nat) :
    (Memory.cons a v m).read c = if a = c then v else m.read c := by
  unfold Memory.cons
  split
  · next hv =>
    split
    · next hc => rw [Memory.read_of_lt hm (by omega), hv, hc]
    · rfl
  · rfl

theorem Memory.wfFrom_cons {lo a : Nat} {m : Memory} (h : lo ≤ a) (hm : Memory.wfFrom (a + 1) m = true)
    (v : Byte) : Memory.wfFrom lo (Memory.cons a v m) = true := by
  unfold Memory.cons
  split
  · exact Memory.wfFrom_weaken (by omega) hm
  · next hv => exact (Memory.wfFrom_entry ..).2 ⟨h, hv, hm⟩

theorem Memory.wfFrom_write {lo a : Nat} {m : Memory} (hm : Memory.wfFrom lo m = true) (h : lo ≤ a) (v : Byte) :
    Memory.wfFrom lo (m.write a v) = true := by
  induction m generalizing lo with
  | nil => exact Memory.wfFrom_cons h rfl v
  | cons c m ih =>
    obtain ⟨b, w⟩ := c
    have hc := (Memory.wfFrom_entry ..).1 hm
    unfold Memory.write
    split
    · next hab => exact Memory.wfFrom_cons h ((Memory.wfFrom_entry ..).2 ⟨by omega, hc.2⟩) v
    · split
      · next hab => subst hab; exact Memory.wfFrom_cons h hc.2.2 v
      · exact (Memory.wfFrom_entry ..).2 ⟨hc.1, hc.2.1, ih hc.2.2 (by omega)⟩

/-- Every write keeps the canonical form. -/
theorem Memory.wf_write {m : Memory} (hm : m.wf = true) (a : Nat) (v : Byte) : (m.write a v).wf = true :=
  Memory.wfFrom_write hm (Nat.zero_le a) v

theorem Memory.read_write_from {lo : Nat} {m : Memory} (hm : Memory.wfFrom lo m = true) (a : Nat) (v : Byte)
    (c : Nat) : (m.write a v).read c = if a = c then v else m.read c := by
  induction m generalizing lo with
  | nil => exact Memory.read_cons rfl v c
  | cons e m ih =>
    obtain ⟨b, w⟩ := e
    have hc := (Memory.wfFrom_entry ..).1 hm
    unfold Memory.write
    split
    · next hab => exact Memory.read_cons ((Memory.wfFrom_entry ..).2 ⟨by omega, hc.2⟩) v c
    · split
      · next hab =>
        subst hab
        rw [Memory.read_cons hc.2.2, Memory.read_entry]
        split <;> rfl
      · next hab hne =>
        rw [Memory.read_entry, ih hc.2.2, Memory.read_entry]
        split <;> split <;> first | rfl | omega

/-- A read after a write: the written byte at its address, every other byte as before. -/
theorem Memory.read_write {m : Memory} (hm : m.wf = true) (a : Nat) (v : Byte) (c : Nat) :
    (m.write a v).read c = if a = c then v else m.read c :=
  Memory.read_write_from hm a v c

/-- A write leaves every other address as it was, canonical or not. -/
theorem Memory.read_write_other (m : Memory) {a c : Nat} (v : Byte) (h : a ≠ c) : (m.write a v).read c = m.read c := by
  have hcons : ∀ n : Memory, (Memory.cons a v n).read c = n.read c := by
    intro n
    unfold Memory.cons
    split
    · rfl
    · rw [Memory.read_entry, if_neg h]
  induction m with
  | nil => exact hcons []
  | cons e m ih =>
    obtain ⟨b, w⟩ := e
    unfold Memory.write
    split
    · exact hcons _
    · split
      · next hab => rw [hcons, Memory.read_entry, if_neg (hab ▸ h)]
      · rw [Memory.read_entry, Memory.read_entry, ih]

theorem Memory.below_entry (c : Nat × Byte) (m : Memory) (n : Nat) :
    Memory.below (c :: m) n = true ↔ c.1 < n ∧ m.below n = true := by
  simp [Memory.below]

theorem Memory.below_cons {m : Memory} {n a : Nat} (hm : m.below n = true) (ha : a < n) (v : Byte) :
    (Memory.cons a v m).below n = true := by
  unfold Memory.cons
  split
  · exact hm
  · exact (Memory.below_entry ..).2 ⟨ha, hm⟩

/-- A write inside memory keeps every listed address inside memory. -/
theorem Memory.below_write {m : Memory} {n a : Nat} (hm : m.below n = true) (ha : a < n) (v : Byte) :
    (m.write a v).below n = true := by
  induction m with
  | nil => exact Memory.below_cons rfl ha v
  | cons c m ih =>
    have hc := (Memory.below_entry ..).1 hm
    unfold Memory.write
    split
    · exact Memory.below_cons hm ha v
    · split
      · exact Memory.below_cons hc.2 ha v
      · exact (Memory.below_entry ..).2 ⟨hc.1, ih hc.2⟩

theorem Memory.eq_of_read_from {lo : Nat} {m n : Memory} (hm : Memory.wfFrom lo m = true)
    (hn : Memory.wfFrom lo n = true) (h : ∀ a, m.read a = n.read a) : m = n := by
  induction m generalizing lo n with
  | nil =>
    cases n with
    | nil => rfl
    | cons d n =>
      obtain ⟨b, w⟩ := d
      have hd := (Memory.wfFrom_entry ..).1 hn
      exact absurd (by simpa using (h b).symm) hd.2.1
  | cons c m ih =>
    obtain ⟨a, v⟩ := c
    have hc := (Memory.wfFrom_entry ..).1 hm
    cases n with
    | nil => exact absurd (by simpa using h a) hc.2.1
    | cons d n =>
      obtain ⟨b, w⟩ := d
      have hd := (Memory.wfFrom_entry ..).1 hn
      have hab : a = b := by
        rcases Nat.lt_trichotomy a b with hlt | heq | hgt
        · have := h a
          rw [Memory.read_entry, if_pos rfl, Memory.read_entry, if_neg (by omega),
            Memory.read_of_lt hd.2.2 (by omega)] at this
          exact absurd this hc.2.1
        · exact heq
        · have := h b
          rw [Memory.read_entry, if_neg (by omega), Memory.read_entry, if_pos rfl,
            Memory.read_of_lt hc.2.2 (by omega)] at this
          exact absurd this.symm hd.2.1
      subst hab
      have hvw : v = w := by simpa using h a
      subst hvw
      have htail : m = n := ih hc.2.2 hd.2.2 fun x => by
        by_cases hx : a = x
        · subst hx
          rw [Memory.read_of_lt hc.2.2 (by omega), Memory.read_of_lt hd.2.2 (by omega)]
        · simpa [hx] using h x
      rw [htail]

/-- Equal memories are equal data. -/
theorem Memory.eq_of_read {m n : Memory} (hm : m.wf = true) (hn : n.wf = true)
    (h : ∀ a, m.read a = n.read a) : m = n :=
  Memory.eq_of_read_from hm hn h

/-- Placing bytes keeps the canonical form. -/
theorem State.wf_placeBytes {s : State} (h : s.mem.wf = true) (a : Nat) (vs : List Byte) :
    (s.placeBytes a vs).mem.wf = true := by
  induction vs generalizing s a with
  | nil => exact h
  | cons v vs ih =>
    unfold State.placeBytes
    split
    · exact ih (Memory.wf_write h a v) (a + 1)
    · exact ih h (a + 1)

theorem reset_memory_wf : State.reset.mem.wf = true := rfl

end Sys2Proof.Machine
end

