-- ==== Sys2Proof/Laws/State.lean ====
section
/-! SUPPORT. One lemma per field per update of State. -/

namespace Sys2Proof.Machine

section
variable (s : State) (i j : RegIdx) (v : Byte) (n : Nat) (e : Event) (c : HaltCause) (t : Trap) (o : Option Byte)

/-! ### setReg -/

theorem State.reg_setReg : (s.setReg i v).reg j = if i = j then v else s.reg j := by
  simp [State.reg, State.setReg, Vector.getElem_set, Fin.ext_iff]

@[simp] theorem State.reg_setReg_same : (s.setReg i v).reg i = v := by simp [State.reg_setReg]

@[simp] theorem State.setReg_cfg : (s.setReg i v).cfg = s.cfg := rfl
@[simp] theorem State.setReg_pc : (s.setReg i v).pc = s.pc := rfl
@[simp] theorem State.setReg_ir : (s.setReg i v).ir = s.ir := rfl
@[simp] theorem State.setReg_run : (s.setReg i v).run = s.run := rfl
@[simp] theorem State.setReg_haltCause : (s.setReg i v).haltCause = s.haltCause := rfl
@[simp] theorem State.setReg_mem : (s.setReg i v).mem = s.mem := rfl
@[simp] theorem State.setReg_events : (s.setReg i v).events = s.events := rfl

/-! ### advance -/

@[simp] theorem State.advance_cfg : (s.advance n).cfg = s.cfg := rfl
@[simp] theorem State.advance_x : (s.advance n).x = s.x := rfl
@[simp] theorem State.advance_pc : (s.advance n).pc = s.pc + n := rfl
@[simp] theorem State.advance_ir : (s.advance n).ir = s.ir := rfl
@[simp] theorem State.advance_run : (s.advance n).run = s.run := rfl
@[simp] theorem State.advance_haltCause : (s.advance n).haltCause = s.haltCause := rfl
@[simp] theorem State.advance_mem : (s.advance n).mem = s.mem := rfl
@[simp] theorem State.advance_events : (s.advance n).events = s.events := rfl
@[simp] theorem State.advance_reg : (s.advance n).reg j = s.reg j := rfl

/-! ### emit -/

@[simp] theorem State.emit_cfg : (s.emit e).cfg = s.cfg := rfl
@[simp] theorem State.emit_x : (s.emit e).x = s.x := rfl
@[simp] theorem State.emit_pc : (s.emit e).pc = s.pc := rfl
@[simp] theorem State.emit_ir : (s.emit e).ir = s.ir := rfl
@[simp] theorem State.emit_run : (s.emit e).run = s.run := rfl
@[simp] theorem State.emit_haltCause : (s.emit e).haltCause = s.haltCause := rfl
@[simp] theorem State.emit_mem : (s.emit e).mem = s.mem := rfl
@[simp] theorem State.emit_events : (s.emit e).events = s.events ++ [e] := rfl
@[simp] theorem State.emit_reg : (s.emit e).reg j = s.reg j := rfl

/-! ### haltBy -/

@[simp] theorem State.haltBy_cfg : (s.haltBy c).cfg = s.cfg := rfl
@[simp] theorem State.haltBy_x : (s.haltBy c).x = s.x := rfl
@[simp] theorem State.haltBy_pc : (s.haltBy c).pc = s.pc := rfl
@[simp] theorem State.haltBy_ir : (s.haltBy c).ir = s.ir := rfl
@[simp] theorem State.haltBy_run : (s.haltBy c).run = .halted := rfl
@[simp] theorem State.haltBy_haltCause : (s.haltBy c).haltCause = c := rfl
@[simp] theorem State.haltBy_mem : (s.haltBy c).mem = s.mem := rfl
@[simp] theorem State.haltBy_events : (s.haltBy c).events = s.events := rfl
@[simp] theorem State.haltBy_reg : (s.haltBy c).reg j = s.reg j := rfl

/-! ### raise: everything that taking a fault does -/

@[simp] theorem State.raise_cfg : (s.raise t o).cfg = s.cfg := rfl
@[simp] theorem State.raise_x : (s.raise t o).x = s.x := rfl
@[simp] theorem State.raise_pc : (s.raise t o).pc = s.pc := rfl
@[simp] theorem State.raise_ir : (s.raise t o).ir = s.ir := rfl
@[simp] theorem State.raise_run : (s.raise t o).run = .halted := rfl
@[simp] theorem State.raise_haltCause : (s.raise t o).haltCause = .fault t.kind := rfl
@[simp] theorem State.raise_mem : (s.raise t o).mem = s.mem := rfl
@[simp] theorem State.raise_events :
    (s.raise t o).events = s.events ++ [.report t.kind s.pc o t.detail] := rfl
@[simp] theorem State.raise_reg : (s.raise t o).reg j = s.reg j := rfl

/-! ### interruptCheck: everything step 1 does -/

@[simp] theorem State.interruptCheck_cfg : s.interruptCheck.cfg = s.cfg := rfl
@[simp] theorem State.interruptCheck_pc : s.interruptCheck.pc = s.pc := rfl
@[simp] theorem State.interruptCheck_ir : s.interruptCheck.ir = s.ir := rfl
@[simp] theorem State.interruptCheck_run : s.interruptCheck.run = s.run := rfl
@[simp] theorem State.interruptCheck_haltCause : s.interruptCheck.haltCause = s.haltCause := rfl
@[simp] theorem State.interruptCheck_mem : s.interruptCheck.mem = s.mem := rfl
@[simp] theorem State.interruptCheck_events :
    s.interruptCheck.events = s.events ++ s.interruptEvents := rfl

theorem State.interruptCheck_reg : s.interruptCheck.reg j = if 6 = j then 0 else s.reg j := by
  unfold State.interruptCheck
  rw [State.reg_setReg]
  rfl

end

theorem mem_allLines (i : Line) : i ∈ allLines := by revert i; decide

/-- Line i is among the lines of a mask exactly when bit i is set. -/
theorem mem_linesOf (m : Byte) (i : Line) : i ∈ linesOf m ↔ m.getLsb i = true := by
  simp [linesOf, mem_allLines]

/-- The lines come in ascending order, each once. -/
theorem linesOf_ascending (m : Byte) : (linesOf m).Pairwise (· < ·) :=
  List.Pairwise.filter _ (by decide)

end Sys2Proof.Machine
end

