-- ==== Sys2Proof/Laws/Exec.lean ====
section
/-! SUPPORT. What each meaning can do, said once: it takes one fault, or it completes. -/

namespace Sys2Proof.Machine

/-- A fault that a handler of `s` can raise. -/
def State.HandlerTrap (s : State) : Trap → Prop
  | .invalidOpcode => False
  | .badRegister b => 8 ≤ b.toNat
  | .memRange a    => s.cfg.memSize ≤ a

theorem selectReg_ok {b : Byte} (h : b.toNat < 8) : selectReg b = .ok ⟨b.toNat, h⟩ := by
  simp [selectReg, h]

theorem selectReg_bad {b : Byte} (h : 8 ≤ b.toNat) : selectReg b = .error (.badRegister b) := by
  simp [selectReg, Nat.not_lt.2 h]

theorem State.operand_ok {s : State} {k : Nat} (b : Byte) (h : s.pc + k < s.cfg.memSize) :
    s.operand k b = .ok b := if_pos h

theorem State.operand_bad {s : State} {k : Nat} (b : Byte) (h : s.cfg.memSize ≤ s.pc + k) :
    s.operand k b = .error (.memRange (s.pc + k)) := if_neg (Nat.not_lt.2 h)

theorem State.regSel_ok {s : State} {k : Nat} {b : Byte} (h : s.pc + k < s.cfg.memSize) (hb : b.toNat < 8) :
    s.regSel k b = .ok ⟨b.toNat, hb⟩ := by
  simp [State.regSel, State.operand_ok b h, Except.bind, selectReg_ok hb]

theorem State.regSel_range {s : State} {k : Nat} (b : Byte) (h : s.cfg.memSize ≤ s.pc + k) :
    s.regSel k b = .error (.memRange (s.pc + k)) := by
  simp [State.regSel, State.operand_bad b h, Except.bind]

theorem State.regSel_bad {s : State} {k : Nat} {b : Byte} (h : s.pc + k < s.cfg.memSize) (hb : 8 ≤ b.toNat) :
    s.regSel k b = .error (.badRegister b) := by
  simp [State.regSel, State.operand_ok b h, Except.bind, selectReg_bad hb]

/-- What reading an operand can answer. -/
theorem State.operand_cases (s : State) (k : Nat) (b : Byte) :
    (s.pc + k < s.cfg.memSize ∧ s.operand k b = .ok b) ∨
    (∃ f, s.HandlerTrap f ∧ s.operand k b = .error f) := by
  rcases Nat.lt_or_ge (s.pc + k) s.cfg.memSize with h | h
  · exact .inl ⟨h, State.operand_ok b h⟩
  · exact .inr ⟨.memRange _, h, State.operand_bad b h⟩

/-- What selecting a register can answer. -/
theorem State.regSel_cases (s : State) (k : Nat) (b : Byte) :
    (∃ i : RegIdx, i.val = b.toNat ∧ s.pc + k < s.cfg.memSize ∧ s.regSel k b = .ok i) ∨
    (∃ f, s.HandlerTrap f ∧ s.regSel k b = .error f) := by
  rcases Nat.lt_or_ge (s.pc + k) s.cfg.memSize with h | h
  · rcases Nat.lt_or_ge b.toNat 8 with hb | hb
    · exact .inl ⟨⟨b.toNat, hb⟩, rfl, h, State.regSel_ok h hb⟩
    · exact .inr ⟨.badRegister _, hb, State.regSel_bad h hb⟩
  · exact .inr ⟨.memRange _, h, State.regSel_range b h⟩

/-- What a memory write can answer. -/
theorem State.memWrite_cases (s : State) (a : Nat) (v : Byte) :
    (a < s.cfg.memSize ∧ s.memWrite a v = .ok { s with mem := s.mem.write a v }) ∨
    (∃ f, s.HandlerTrap f ∧ s.memWrite a v = .error f) := by
  rcases Nat.lt_or_ge a s.cfg.memSize with h | h
  · exact .inl ⟨h, if_pos h⟩
  · exact .inr ⟨.memRange _, h, if_neg (Nat.not_lt.2 h)⟩

/-- How an instruction completes: the effect its rule gives it. -/
def Completes (s t : State) : Instr → Prop
  | .halt => t = (s.haltBy .haltInstr).advance 1
  | .loadImmediate r imm =>
    ∃ d : RegIdx, d.val = r.toNat ∧ s.pc + 2 < s.cfg.memSize ∧ t = (s.setReg d imm).advance 3
  | .multiply rA rB =>
    ∃ a b : RegIdx, a.val = rA.toNat ∧ b.val = rB.toNat ∧ s.pc + 2 < s.cfg.memSize ∧
      t = (s.setReg a (alu .mul (s.reg a) (s.reg b))).advance 3
  | .printRegister r =>
    ∃ d : RegIdx, d.val = r.toNat ∧ s.pc + 1 < s.cfg.memSize ∧ t = (s.emit (.output (s.reg d))).advance 2
  | .store rA rB =>
    ∃ a b : RegIdx, a.val = rA.toNat ∧ b.val = rB.toNat ∧ s.pc + 2 < s.cfg.memSize ∧
      s.storeAddress a < s.cfg.memSize ∧
      t = ({ s with mem := s.mem.write (s.storeAddress a) (s.reg b) } : State).advance 3

/-- What a tick of the handler can do: it answers a next state, in which either a fault was taken or the
instruction completed. -/
def Runs (i : Instr) (s t : State) : Prop :=
  (∃ f, s.HandlerTrap f ∧ t = s.raise f (some s.ir)) ∨ Completes s t i

theorem execHalt_runs (s : State) : ∃ t, execHalt s = .next t ∧ Runs .halt s t :=
  ⟨_, rfl, .inr rfl⟩

theorem execLoadImmediate_runs (r imm : Byte) (s : State) :
    ∃ t, execLoadImmediate r imm s = .next t ∧ Runs (.loadImmediate r imm) s t := by
  unfold execLoadImmediate
  rcases s.regSel_cases 1 r with ⟨d, hd, _, h1⟩ | ⟨f, hf, h1⟩ <;> rw [h1]
  · rcases s.operand_cases 2 imm with ⟨h, h2⟩ | ⟨f, hf, h2⟩ <;> rw [h2]
    · exact ⟨_, rfl, .inr ⟨d, hd, h, rfl⟩⟩
    · exact ⟨_, rfl, .inl ⟨f, hf, rfl⟩⟩
  · exact ⟨_, rfl, .inl ⟨f, hf, rfl⟩⟩

theorem execMultiply_runs (rA rB : Byte) (s : State) :
    ∃ t, execMultiply rA rB s = .next t ∧ Runs (.multiply rA rB) s t := by
  unfold execMultiply
  rcases s.regSel_cases 1 rA with ⟨a, ha, _, h1⟩ | ⟨f, hf, h1⟩ <;> rw [h1]
  · rcases s.regSel_cases 2 rB with ⟨b, hb, h, h2⟩ | ⟨f, hf, h2⟩ <;> rw [h2]
    · exact ⟨_, rfl, .inr ⟨a, b, ha, hb, h, rfl⟩⟩
    · exact ⟨_, rfl, .inl ⟨f, hf, rfl⟩⟩
  · exact ⟨_, rfl, .inl ⟨f, hf, rfl⟩⟩

theorem execPrintRegister_runs (r : Byte) (s : State) :
    ∃ t, execPrintRegister r s = .next t ∧ Runs (.printRegister r) s t := by
  unfold execPrintRegister
  rcases s.regSel_cases 1 r with ⟨d, hd, h, h1⟩ | ⟨f, hf, h1⟩ <;> rw [h1]
  · exact ⟨_, rfl, .inr ⟨d, hd, h, rfl⟩⟩
  · exact ⟨_, rfl, .inl ⟨f, hf, rfl⟩⟩

theorem execStore_runs (rA rB : Byte) (s : State) :
    ∃ t, execStore rA rB s = .next t ∧ Runs (.store rA rB) s t := by
  unfold execStore
  rcases s.regSel_cases 1 rA with ⟨a, ha, _, h1⟩ | ⟨f, hf, h1⟩ <;> rw [h1]
  · rcases s.regSel_cases 2 rB with ⟨b, hb, h, h2⟩ | ⟨f, hf, h2⟩ <;> rw [h2]
    · dsimp only [bind, Except.bind]
      rcases s.memWrite_cases (s.storeAddress a) (s.reg b) with ⟨h', h3⟩ | ⟨f, hf, h3⟩ <;> rw [h3]
      · exact ⟨_, rfl, .inr ⟨a, b, ha, hb, h, h', rfl⟩⟩
      · exact ⟨_, rfl, .inl ⟨f, hf, rfl⟩⟩
    · exact ⟨_, rfl, .inl ⟨f, hf, rfl⟩⟩
  · exact ⟨_, rfl, .inl ⟨f, hf, rfl⟩⟩

/-- The one inversion of `exec`. -/
theorem exec_cases {i : Instr} {s t : State} (h : exec i s = .next t) : Runs i s t := by
  obtain ⟨u, hu, hr⟩ : ∃ u, exec i s = .next u ∧ Runs i s u := by
    cases i with
    | halt => exact execHalt_runs s
    | loadImmediate r imm => exact execLoadImmediate_runs r imm s
    | multiply rA rB => exact execMultiply_runs rA rB s
    | printRegister r => exact execPrintRegister_runs r s
    | store rA rB => exact execStore_runs rA rB s
  rw [hu] at h
  injection h with h
  exact h ▸ hr

end Sys2Proof.Machine
end

