-- ==== Sys2Proof/Laws/Step.lean ====
section
/-! SUPPORT. What a tick can do, said once. -/

namespace Sys2Proof.Machine

section
variable (s : State) (j : RegIdx)

@[simp] theorem State.fetched_cfg : s.fetched.cfg = s.cfg := rfl
@[simp] theorem State.fetched_pc : s.fetched.pc = s.pc := rfl
@[simp] theorem State.fetched_ir : s.fetched.ir = s.mem.read s.pc := rfl
@[simp] theorem State.fetched_run : s.fetched.run = s.run := rfl
@[simp] theorem State.fetched_haltCause : s.fetched.haltCause = s.haltCause := rfl
@[simp] theorem State.fetched_mem : s.fetched.mem = s.mem := rfl
@[simp] theorem State.fetched_events : s.fetched.events = s.events ++ s.interruptEvents := rfl
@[simp] theorem State.fetched_reg : s.fetched.reg j = s.interruptCheck.reg j := rfl
@[simp] theorem State.fetched_window : s.fetched.window = s.window := rfl

end

theorem State.window_eq (s : State) :
    s.window = [s.mem.read s.pc, s.mem.read (s.pc + 1), s.mem.read (s.pc + 2)] := rfl

/-- The instruction a handler runs, from the bytes after its opcode. -/
def State.instrAt (s : State) : Handler → Instr
  | .halt          => .halt
  | .loadImmediate => .loadImmediate (s.mem.read (s.pc + 1)) (s.mem.read (s.pc + 2))
  | .multiply      => .multiply (s.mem.read (s.pc + 1)) (s.mem.read (s.pc + 2))
  | .printRegister => .printRegister (s.mem.read (s.pc + 1))
  | .store         => .store (s.mem.read (s.pc + 1)) (s.mem.read (s.pc + 2))

/-- Decoding the window is the dispatch table on the byte at `pc`. -/
theorem State.decode_window (s : State) :
    decode s.cfg.opcST s.window =
      match decodeOpcode s.cfg.opcST (s.mem.read s.pc) with
      | some h => decodeOperands h [s.mem.read (s.pc + 1), s.mem.read (s.pc + 2)]
      | none   => .rejected (.invalidOpcode (s.mem.read s.pc)) := rfl

theorem step_halted {s : State} (h : s.run = .halted) : step s = .next s := by
  simp [step, State.beginTick, h]

theorem step_fetch_fault {s : State} (hr : s.run = .running) (hp : s.cfg.memSize ≤ s.pc) :
    step s = .next (s.interruptCheck.raise (.memRange s.pc) none) := by
  simp [step, State.beginTick, hr, State.fetch, State.memRead, Nat.not_lt.2 hp, Except.map]

theorem beginTick_fetched {s : State} (hr : s.run = .running) (hp : s.pc < s.cfg.memSize) :
    s.beginTick = s.fetched.decodeFetched := by
  have hf : s.interruptCheck.fetch = .ok s.fetched := by
    unfold State.fetch State.memRead
    rw [State.interruptCheck_pc, State.interruptCheck_cfg, if_pos hp]
    rfl
  unfold State.beginTick
  rw [hr, hf]

theorem step_invalid {s : State} (hr : s.run = .running) (hp : s.pc < s.cfg.memSize)
    (hd : decodeOpcode s.cfg.opcST (s.mem.read s.pc) = none) :
    step s = .next (s.fetched.raise .invalidOpcode (some (s.mem.read s.pc))) := by
  simp [step, beginTick_fetched hr hp, State.decodeFetched, State.decode_window, hd]

theorem step_handler {s : State} (hr : s.run = .running) (hp : s.pc < s.cfg.memSize) {h : Handler}
    (hd : decodeOpcode s.cfg.opcST (s.mem.read s.pc) = some h) :
    step s = exec (s.instrAt h) s.fetched := by
  unfold step
  rw [beginTick_fetched hr hp]
  unfold State.decodeFetched
  rw [State.fetched_cfg, State.fetched_window, State.decode_window, hd]
  cases h <;> rfl

/-- The one inversion of `step`: every way a tick can go. -/
theorem step_cases {s t : State} (h : step s = .next t) :
    (s.run = .halted ∧ t = s) ∨
    (s.run = .running ∧ s.cfg.memSize ≤ s.pc ∧ t = s.interruptCheck.raise (.memRange s.pc) none) ∨
    (s.run = .running ∧ s.pc < s.cfg.memSize ∧ decodeOpcode s.cfg.opcST (s.mem.read s.pc) = none ∧
      t = s.fetched.raise .invalidOpcode (some (s.mem.read s.pc))) ∨
    (∃ k, s.run = .running ∧ s.pc < s.cfg.memSize ∧ decodeOpcode s.cfg.opcST (s.mem.read s.pc) = some k ∧
      Runs (s.instrAt k) s.fetched t) := by
  cases hr : s.run with
  | halted =>
    rw [step_halted hr] at h
    injection h with h
    exact .inl ⟨rfl, h.symm⟩
  | running =>
    rcases Nat.lt_or_ge s.pc s.cfg.memSize with hp | hp
    · rcases hd : decodeOpcode s.cfg.opcST (s.mem.read s.pc) with _ | k
      · rw [step_invalid hr hp hd] at h
        injection h with h
        exact .inr (.inr (.inl ⟨rfl, hp, rfl, h.symm⟩))
      · rw [step_handler hr hp hd] at h
        exact .inr (.inr (.inr ⟨k, rfl, hp, rfl, exec_cases h⟩))
    · rw [step_fetch_fault hr hp] at h
      injection h with h
      exact .inr (.inl ⟨rfl, hp, h.symm⟩)

/-- Placing three bytes that fit changes memory only, and they read back. -/
theorem State.placeBytes_three {s : State} (hw : s.mem.wf = true) (h : s.pc + 2 < s.cfg.memSize) (u v w : Byte) :
    ∃ m : Memory, s.placeBytes s.pc [u, v, w] = { s with mem := m } ∧
      m.read s.pc = u ∧ m.read (s.pc + 1) = v ∧ m.read (s.pc + 2) = w := by
  have h1 := Memory.wf_write hw s.pc u
  have h2 := Memory.wf_write h1 (s.pc + 1) v
  refine ⟨((s.mem.write s.pc u).write (s.pc + 1) v).write (s.pc + 2) w, ?_, ?_, ?_, ?_⟩
  · simp only [State.placeBytes]
    rw [if_pos (show s.pc < s.cfg.memSize by omega)]
    rw [if_pos (show s.pc + 1 < s.cfg.memSize by omega)]
    rw [if_pos (show s.pc + 1 + 1 < s.cfg.memSize by omega)]
  all_goals simp [Memory.read_write h2, Memory.read_write h1, Memory.read_write hw]

/-- `withFetchWord` does what the host asks of it: the very next tick runs the word's instruction. -/
theorem step_withFetchWord {s : State} {nbits w : Nat} {i : Instr} (hw : s.mem.wf = true)
    (h : s.pc + 2 < s.cfg.memSize)
    (hd : (match decode s.cfg.opcST (tableBytes nbits w) with
      | .instr i _ => some i
      | .rejected _ => none) = some i) :
    step (s.withFetchWord nbits w) = exec i (s.withFetchWord nbits w).fetched := by
  obtain ⟨m, hm, h0, h1, h2⟩ := State.placeBytes_three
    (s := { s with run := .running, haltCause := .none }) hw h
    (BitVec.ofNat 8 (w % 2 ^ nbits / 256 ^ 0)) (BitVec.ofNat 8 (w % 2 ^ nbits / 256 ^ 1))
    (BitVec.ofNat 8 (w % 2 ^ nbits / 256 ^ 2))
  have hp : s.withFetchWord nbits w = { s with run := .running, haltCause := .none, mem := m } := hm
  rw [hp]
  have hwin : State.window { s with run := .running, haltCause := .none, mem := m } = tableBytes nbits w := by
    rw [State.window_eq]
    show [m.read s.pc, m.read (s.pc + 1), m.read (s.pc + 2)] = _
    rw [h0, h1, h2]
    rfl
  unfold step
  rw [beginTick_fetched (s := { s with run := .running, haltCause := .none, mem := m }) rfl
    (show s.pc < s.cfg.memSize by omega)]
  unfold State.decodeFetched
  rw [State.fetched_cfg, State.fetched_window, hwin]
  revert hd
  show (match decode s.cfg.opcST (tableBytes nbits w) with | .instr i _ => some i | .rejected _ => none) = some i → _
  cases decode s.cfg.opcST (tableBytes nbits w) with
  | instr j rest => intro hd; injection hd with hd; subst hd; rfl
  | rejected why => intro hd; cases hd

end Sys2Proof.Machine
end

