-- ==== Sys2Proof/Laws/Driver.lean ====
section
/-! SUPPORT. What a host move can do, and the inductions over runs, each packaged once. -/

namespace Sys2Proof.Machine

/-- The one inversion of a host move. -/
theorem System.move_cases {sys sys' : System} {m : HostMove} (h : sys.move m = .next sys') :
    (∃ a v, m = .poke a v ∧ sys.ticked = false ∧ a < sys.core.cfg.memSize ∧
      sys' = { sys with core := { sys.core with mem := sys.core.mem.write a v } }) ∨
    (∃ t, (m = .step ∨ m = .driverTick) ∧ step sys.core = .next t ∧ sys' = { sys with core := t, ticked := true }) ∨
    (∃ l, m = .raiseLines l ∧ sys' = { sys with core := sys.core.raiseLines l }) ∨
    (m ≠ .step ∧ ∃ b, sys' = { sys with started := b }) := by
  have tick : ∀ {u}, sys.tick = .next u → ∃ t, step sys.core = .next t ∧ u = { sys with core := t, ticked := true } := by
    intro u hu
    unfold System.tick at hu
    split at hu
    · next t ht => injection hu with hu; exact ⟨t, ht, hu.symm⟩
    · cases hu
    · cases hu
  cases m with
  | poke a v =>
    simp only [System.move, System.poke] at h
    split at h
    · cases h
    · next ht =>
      split at h
      · next ha => injection h with h; exact .inl ⟨a, v, rfl, by simpa using ht, ha, h.symm⟩
      · cases h
  | start => injection h with h; exact .inr (.inr (.inr ⟨by simp, true, h.symm⟩))
  | stop => injection h with h; exact .inr (.inr (.inr ⟨by simp, false, h.symm⟩))
  | step =>
    obtain ⟨t, ht, hu⟩ := tick h
    exact .inr (.inl ⟨t, .inl rfl, ht, hu⟩)
  | driverTick =>
    simp only [System.move] at h
    split at h
    · obtain ⟨t, ht, hu⟩ := tick h
      exact .inr (.inl ⟨t, .inr rfl, ht, hu⟩)
    · injection h with h
      exact .inr (.inr (.inr ⟨by simp, sys.started, h.symm⟩))
  | raiseLines l => injection h with h; exact .inr (.inr (.inl ⟨l, rfl, h.symm⟩))
  | observe => injection h with h; exact .inr (.inr (.inr ⟨by simp, sys.started, h.symm⟩))

/-- A sequence of moves, one move at a time. -/
theorem System.moves_next {sys sys' : System} {m : HostMove} {ms : List HostMove} :
    System.moves (m :: ms) sys = .next sys' ↔ ∃ mid, sys.move m = .next mid ∧ System.moves ms mid = .next sys' := by
  simp only [System.moves]
  cases hm : sys.move m <;> simp

/-- What every accepted move keeps, every accepted sequence of moves keeps. -/
theorem System.moves_keep {P : System → Prop} (hP : ∀ sys m sys', P sys → sys.move m = .next sys' → P sys')
    {ms : List HostMove} {sys sys' : System} (h : P sys) (hm : System.moves ms sys = .next sys') : P sys' := by
  induction ms generalizing sys with
  | nil => injection hm with hm; exact hm ▸ h
  | cons m ms ih =>
    obtain ⟨mid, h1, h2⟩ := System.moves_next.1 hm
    exact ih (hP sys m mid h h1) h2

/-- What every tick keeps, every run of ticks keeps. -/
theorem run_keeps {P : State → Prop} (hP : ∀ s t, P s → step s = .next t → P t) {n : Nat} {s t : State} (h : P s)
    (hr : Sys2Proof.core.run n s = .next t) : P t := by
  induction n generalizing s with
  | zero => injection hr with hr; exact hr ▸ h
  | succ n ih =>
    simp only [Host.Core.run] at hr
    cases hs : Sys2Proof.core.step s with
    | next u => rw [hs] at hr; exact ih (hP s u h hs) hr
    | fault f => rw [hs] at hr; cases hr
    | refused r => rw [hs] at hr; cases hr

end Sys2Proof.Machine
end

