-- ==== Sys2Proof/Laws/PerInstr.lean ====
section
/-! SUPPORT. Statements about every instruction as syntax, one lemma per constructor. -/

namespace Sys2Proof.Laws.WidthIsEncodedLength

/-- An instruction occupies as many bytes as its width says, whatever `OPC_ST` is (30_encoding.md R60, R61). -/
def Statement (i : Instr) : Prop := ∀ opcST : Byte, (encode opcST i).length = i.width

theorem halt : Statement .halt := fun _ => rfl
theorem loadImmediate (r imm : Byte) : Statement (.loadImmediate r imm) := fun _ => rfl
theorem multiply (rA rB : Byte) : Statement (.multiply rA rB) := fun _ => rfl
theorem printRegister (r : Byte) : Statement (.printRegister r) := fun _ => rfl
theorem store (rA rB : Byte) : Statement (.store rA rB) := fun _ => rfl

end Sys2Proof.Laws.WidthIsEncodedLength
end

