-- ==== Sys2Proof/Tests/Slice0.lean ====
section
/-! SUPPORT. Tests and witnesses. Expected results are the spec's own vectors (95_test_vectors.md, cited by id) or hand
calculation from the rule named. -/

namespace Sys2Proof.Tests

open Sys2Proof.Machine Sys2Proof.Expected

/-! ### Helpers -/

/-- A Running core with `size` bytes of memory, `OPC_ST` = 0x80, `pc`, some registers, and code from `pc` on. -/
def start (size pc : Nat) (regs : List (RegIdx × Byte)) (code : List Byte) : State :=
  State.placeBytes
    (regs.foldl (fun s r => s.setReg r.1 r.2)
      { State.resetWith { memSize := size, opcST := 0x80 } ResetParams.zero with pc := pc }) pc code

/-- The state a tick answers, if it answers one. -/
def ticked (s : State) : Option State :=
  match step s with
  | .next t => some t
  | _ => none

/-- The state after a tick. -/
def after (s : State) : State := (ticked s).getD s

/-- The state a meaning answers, if it answers one. -/
def ran (i : Instr) (s : State) : Option State :=
  match exec i s with
  | .next t => some t
  | _ => none

theorem step_after {s : State} (h : (ticked s).isSome = true) : step s = .next (after s) := by
  unfold after
  unfold ticked at h ⊢
  cases hs : step s <;> simp_all

theorem exec_ran {i : Instr} {s : State} (h : (ran i s).isSome = true) : exec i s = .next ((ran i s).getD s) := by
  unfold ran at h ⊢
  cases hs : exec i s <;> simp_all

/-! ### WellFormed: an ill-formed term for each check (30_encoding.md R62) -/

theorem test_wellFormed_refuses_selectors_above_7 :
    (Instr.loadImmediate 8 0).wellFormed = false ∧ (Instr.multiply 8 0).wellFormed = false ∧
    (Instr.multiply 0 8).wellFormed = false ∧ (Instr.printRegister 255).wellFormed = false ∧
    (Instr.store 8 0).wellFormed = false ∧ (Instr.store 0 8).wellFormed = false := by decide

theorem test_wellFormed_accepts_selector_7 :
    (Instr.loadImmediate 7 255).wellFormed = true ∧ (Instr.multiply 7 7).wellFormed = true ∧
    (Instr.printRegister 7).wellFormed = true ∧ (Instr.store 7 7).wellFormed = true ∧
    Instr.halt.wellFormed = true := by decide

/-! ### Decode: words written out from 30_encoding.md R61, R65 -/

theorem test_decode_loadImmediate : decode 0x80 [0x04, 0x07, 0xFF] = .instr (.loadImmediate 7 255) [] := by decide
theorem test_decode_multiply : decode 0x80 [0x05, 0x02, 0x03, 0x06] = .instr (.multiply 2 3) [0x06] := by decide
theorem test_decode_printRegister : decode 0x80 [0x06, 0x05] = .instr (.printRegister 5) [] := by decide
theorem test_decode_halt : decode 0x80 [0x1B, 0x04] = .instr .halt [0x04] := by decide
theorem test_decode_store : decode 0x80 [0x80, 0x01, 0x02] = .instr (.store 1 2) [] := by decide
theorem test_decode_rejects :
    decode 0x80 [] = .rejected .noBytes ∧ decode 0x80 [0xFF] = .rejected (.invalidOpcode 0xFF) ∧
    decode 0x80 [0x05, 0x02] = .rejected (.missingOperand .multiply) := by decide
theorem test_decodeTableWord_numbering :
    decodeTableWord 24 0x080004 = some (.loadImmediate 0 8) ∧ decodeTableWord 24 0x010005 = some (.multiply 0 1) ∧
    decodeTableWord 16 0x0306 = some (.printRegister 3) ∧ decodeTableWord 8 0x1B = some .halt := by decide
theorem test_decodeTableWord_store :
    decodeTableWord 8 resetConfig.opcST.toNat = some (.store 0 0) := by
  have h : tableBytes 8 resetConfig.opcST.toNat = [resetConfig.opcST, 0, 0] := by
    have := resetConfig.opcST.isLt
    simp only [tableBytes, maxWidth, List.range, List.range.loop, List.map]
    refine List.cons_eq_cons.2 ⟨?_, List.cons_eq_cons.2 ⟨?_, List.cons_eq_cons.2 ⟨?_, rfl⟩⟩⟩ <;>
      apply BitVec.eq_of_toNat_eq <;> simp <;> omega
  have hd : decodeOpcode resetConfig.opcST resetConfig.opcST = some .store :=
    decodeOpcode_opcode (storeOpcodeOfSlot_admissible _) .store
  unfold decodeTableWord
  rw [h]
  simp only [decode, hd]
  rfl

/-- The same word runs as the first instruction after reset. -/
theorem test_first_instruction_after_reset :
    (ticked (State.reset.withFetchWord 24 0x080704)).map (fun t => (t.reg 7, t.pc, t.run)) =
      some (8, 3, .running) := by decide

/-- STORE's word, whatever `OPC_ST` is, runs as the first instruction after reset. -/
theorem test_store_first_after_reset :
    step (State.reset.withFetchWord 8 resetConfig.opcST.toNat) =
      exec (.store 0 0) (State.reset.withFetchWord 8 resetConfig.opcST.toNat).fetched :=
  step_withFetchWord rfl (by decide) test_decodeTableWord_store

/-! ### The tick (vectors T1, T2, T7, T8) -/

theorem test_T1_halted_tick :
    (ticked { start 256 5 [(5, 0xFF), (6, 0xFF)] [0x04, 0, 1] with run := .halted }).map
      (fun t => (t.pc, t.is, t.events)) = some (5, 0xFF, []) := by decide

theorem test_T2_interrupts_then_halt :
    (ticked (start 256 0 [(5, 0x05), (6, 0x07)] [0x1B])).map
      (fun t => (t.events, t.is, t.im, t.run, t.pc)) =
      some ([.interrupt 0, .interrupt 2], 0, 0x05, .halted, 1) := by decide

theorem test_T7_interrupts_then_report :
    (ticked (start 256 0x10 [(5, 0xFF), (6, 0xFF)] [0xFF])).map
      (fun t => (t.events, t.is, t.ir, t.pc, t.haltCause)) =
      some ([.interrupt 0, .interrupt 1, .interrupt 2, .interrupt 3, .interrupt 4, .interrupt 5, .interrupt 6,
        .interrupt 7, .report .invalidOpcode 0x10 (some 0xFF) .none], 0, 0xFF, 0x10, .fault .invalidOpcode) := by
  decide

theorem test_T8_fetch_at_end_of_memory :
    (ticked { start 256 256 [] [] with ir := 0x06 }).map (fun t => (t.events, t.ir, t.pc, t.haltCause)) =
      some ([.report .memRange 256 none (.address 256)], 0x06, 256, .fault .memRange) := by decide

/-! ### The instructions, at most two tests each -/

theorem test_H2_halt_at_last_byte :
    (ticked (start 256 255 [] [0x1B])).map (fun t => (t.pc, t.run, t.haltCause, t.events)) =
      some (256, .halted, .haltInstr, []) := by decide

theorem test_LD5_load_status :
    (ticked (start 256 0 [(6, 0x03)] [0x04, 6, 1])).map (fun t => (t.is, t.pc, t.events)) =
      some (1, 3, []) := by decide

/-- Operand 1 is checked before operand 2 is read. -/
theorem test_LD10_selector_before_second_operand :
    (ticked (start 256 254 [] [0x04, 9])).map (fun t => (t.events, t.pc)) =
      some ([.report .badRegister 254 (some 0x04) (.selector 9)], 254) := by decide

theorem test_M2_multiply_wraps :
    (ticked (start 256 0 [(0, 200), (1, 2)] [0x05, 0, 1])).map (fun t => (t.reg 0, t.reg 1, t.pc)) =
      some (144, 2, 3) := by decide

theorem test_M14_multiply_bad_second_selector :
    (ticked (start 256 0 [(0, 5)] [0x05, 0, 9])).map (fun t => (t.events, t.reg 0, t.pc)) =
      some ([.report .badRegister 0 (some 0x05) (.selector 9)], 5, 0) := by decide

theorem test_ST4_store_outside_memory :
    (ticked (start 128 0 [(0, 0x80), (1, 7)] [0x80, 0, 1])).map (fun t => (t.events, t.mem, t.pc)) =
      some ([.report .memRange 0 (some 0x80) (.address 128)], [(0, 0x80), (2, 1)], 0) := by decide

/-- A store over its own first operand byte uses the operands already read. -/
theorem test_ST11_store_over_own_operand :
    (ticked (start 256 0x11 [(0, 0x12), (1, 0x77)] [0x80, 0, 1])).map (fun t => (t.mem.read 0x12, t.pc)) =
      some (0x77, 0x14) := by decide

theorem test_T5_print_status :
    (ticked (start 256 0 [(5, 0xFF), (6, 0x80)] [0x06, 6])).map (fun t => (t.events, t.is, t.pc)) =
      some ([.interrupt 7, .output 0], 0, 2) := by decide

theorem test_PR7_print_operand_outside_memory :
    (ticked (start 256 255 [] [0x06])).map (fun t => (t.events, t.pc)) =
      some ([.report .memRange 255 (some 0x06) (.address 256)], 255) := by decide

/-! ### Memory, output text, assembly, host -/

/-- Writing what an unlisted address reads as removes the entry. -/
theorem test_memory_canonical :
    Memory.write (Memory.write [] 3 5) 1 7 = [(1, 7), (3, 5)] ∧
    Memory.write [(1, 7), (3, 5)] 1 0 = [(3, 5)] := by decide

/-- 95_test_vectors.md, Program C: text output. -/
theorem test_output_text :
    outputText [.interrupt 0, .interrupt 2, .output 0, .output 72, .output 255] =
      ['0', '\n', '7', '2', '\n', '2', '5', '5', '\n'] := by decide

theorem test_assemble :
    assemble "LOAD-IMMEDIATE r0,8".toList = some (.loadImmediate 0 8) ∧
    assemble "LDI r3, 0xfF".toList = some (.loadImmediate 3 255) ∧
    assemble "ST r7,r0".toList = some (.store 7 0) ∧ assemble "HLT".toList = some .halt ∧
    assemble "PRN r8".toList = none ∧ assemble "LDI r0,256".toList = none ∧ assemble "MUL r1".toList = none := by
  decide

/-- T11: lines raised by the host before the tick are delivered with those pending, as IM enables them. -/
theorem test_T11_raise_lines :
    (ticked ((start 256 0 [(5, 0x05), (6, 0x07)] [0x1B]).raiseLines 0x02)).map (fun t => (t.events, t.is)) =
      some ([.interrupt 0, .interrupt 2], 0) := by decide

/-! ### Witnesses: for each statement with hypotheses, concrete values that meet them together -/

/-- DecoderAcceptsExactlyTheEncodings, SampleWordsDecode, DispatchTableIsUnambiguous. -/
theorem witness_admissible_opcode : admissibleStoreOpcode 0x80 = true ∧ admissibleStoreOpcode 0x00 = true ∧
    admissibleStoreOpcode 0xFE = true ∧ admissibleStoreOpcode 0xFF = false := by decide

/-- InvalidOpcodesAreTheOther251: legal parameters, and a core about to fetch an invalid opcode at the last byte. -/
theorem witness_InvalidOpcodesAreTheOther251 : ∃ (c : Config) (s : State), c.legal = true ∧ s.cfg = c ∧
    s.run = .running ∧ s.pc < c.memSize ∧ s.mem.read s.pc ∉ [0x04, 0x05, 0x06, 0x1B, c.opcST] :=
  ⟨_, start 256 255 [] [0xFE], by decide, rfl, by decide, by decide, by decide⟩

/-- ResetEntryPointAndFirstTick, at the smallest legal memory. -/
theorem witness_ResetEntryPointAndFirstTick : (Config.mk 1 0x80).legal = true := by decide

theorem witness_HaltedTickHasNoEffect : ∃ s : State, s.run = .halted := ⟨after (start 256 0 [] [0x1B]), by decide⟩

/-- HaltedIsTerminal: HALT, and each fault. -/
theorem witness_HaltedIsTerminal : ∀ s ∈ [start 256 255 [] [0x1B], start 256 0 [] [0xFF], start 256 0 [] [0x06, 8],
    start 256 256 [] []], ∃ t, s.run = .running ∧ step s = .next t ∧ t.run = .halted := by
  intro s hs
  refine ⟨after s, ?_, step_after ?_, ?_⟩ <;> revert s <;> decide

/-- TickEmitsMaskedLinesFirst, StatusClearedUnlessLoaded: a running tick, with and without a write of R6. -/
theorem witness_running_tick : ∀ s ∈ [start 256 0 [(5, 0xFF), (6, 0x81)] [0x06, 6], start 256 0 [(6, 3)] [0x04, 6, 1]],
    ∃ t, s.run = .running ∧ step s = .next t := by
  intro s hs
  refine ⟨after s, ?_, step_after ?_⟩ <;> revert s <;> decide

/-- FetchLoadsInstructionRegister: the last address, and the first outside memory. -/
theorem witness_FetchLoadsInstructionRegister :
    (∃ s : State, s.run = .running ∧ s.pc < s.cfg.memSize ∧ s.pc + 1 = s.cfg.memSize) ∧
    (∃ s : State, s.run = .running ∧ s.cfg.memSize ≤ s.pc ∧ s.pc = s.cfg.memSize) :=
  ⟨⟨start 256 255 [] [], by decide⟩, ⟨start 256 256 [] [], by decide⟩⟩

theorem witness_InvalidOpcodeFaultPath : ∃ s : State, s.run = .running ∧ s.pc < s.cfg.memSize ∧
    decodeOpcode s.cfg.opcST (s.mem.read s.pc) = none := ⟨start 256 0x10 [] [0xFF], by decide⟩

theorem witness_TickRunsTheDecodedInstruction : ∃ (s : State) (i : Instr) (rest : List Byte), s.run = .running ∧
    s.pc < s.cfg.memSize ∧
    decode s.cfg.opcST [s.mem.read s.pc, s.mem.read (s.pc + 1), s.mem.read (s.pc + 2)] = .instr i rest ∧
    i.wellFormed = true :=
  ⟨start 256 6 [] [0x80, 7, 1], .store 7 1, [], by decide⟩

/-- FaultsArePrecise: a running tick for each kind, the fetch fault and a handler's among them. -/
theorem witness_FaultsArePrecise : ∀ p ∈ [(start 256 0 [] [0xFF], FaultKind.invalidOpcode),
    (start 256 0 [] [0x06, 8], .badRegister), (start 256 254 [] [0x04, 7], .memRange), (start 256 256 [] [], .memRange)],
    ∃ t, p.1.run = .running ∧ p.1.haltCause = .none ∧ step p.1 = .next t ∧ t.run = .halted ∧
      t.haltCause = .fault p.2 := by
  intro p hp
  refine ⟨after p.1, ?_, ?_, step_after ?_, ?_, ?_⟩ <;> revert p <;> decide

/-- HandlerAdvancesByWidth: a completing tick that ends exactly at the end of memory, and a faulting one. -/
theorem witness_HandlerAdvancesByWidth : ∀ p ∈ [(start 256 253 [] [0x04, 7, 1], Handler.loadImmediate),
    (start 256 254 [] [0x04, 7], .loadImmediate)],
    ∃ t, p.1.run = .running ∧ p.1.haltCause = .none ∧ p.1.pc < p.1.cfg.memSize ∧
      decodeOpcode p.1.cfg.opcST (p.1.mem.read p.1.pc) = some p.2 ∧ step p.1 = .next t := by
  intro p hp
  refine ⟨after p.1, ?_, ?_, ?_, ?_, step_after ?_⟩ <;> revert p <;> decide

/-- LoadImmediateResult: each clause at its boundary. -/
theorem witness_LoadImmediateResult :
    (∃ (r : Byte) (s : State) (d : RegIdx), d.val = r.toNat ∧ s.pc + 2 < s.cfg.memSize) ∧
    (∃ s : State, s.cfg.memSize ≤ s.pc + 1 ∧ s.cfg.memSize = s.pc + 1) ∧
    (∃ (r : Byte) (s : State), s.pc + 1 < s.cfg.memSize ∧ 8 ≤ r.toNat ∧ s.cfg.memSize ≤ s.pc + 2) ∧
    (∃ (r : Byte) (s : State), s.pc + 1 < s.cfg.memSize ∧ r.toNat < 8 ∧ s.cfg.memSize ≤ s.pc + 2) :=
  ⟨⟨7, start 256 253 [] [], 7, by decide⟩, ⟨start 256 255 [] [], by decide⟩, ⟨8, start 256 254 [] [], by decide⟩,
    ⟨7, start 256 254 [] [], by decide⟩⟩

/-- MultiplyWrapsSilently, with the two registers equal and different. -/
theorem witness_MultiplyWrapsSilently : ∃ (rA rB : Byte) (s : State) (a b : RegIdx), a.val = rA.toNat ∧
    b.val = rB.toNat ∧ s.pc + 2 < s.cfg.memSize ∧ 255 < (s.reg a).toNat * (s.reg b).toNat :=
  ⟨7, 7, start 256 253 [(7, 16)] [], 7, 7, by decide⟩

/-- StoreResult, at the highest address. -/
theorem witness_StoreResult : ∃ (rA rB : Byte) (s : State) (a b : RegIdx), a.val = rA.toNat ∧ b.val = rB.toNat ∧
    s.pc + 2 < s.cfg.memSize ∧ (s.reg a).toNat < s.cfg.memSize ∧ s.mem.wf = true :=
  ⟨0, 1, start 256 0 [(0, 0xFF), (1, 7)] [0x80, 0, 1], 0, 1, by decide⟩

theorem witness_PrintRegisterResult : ∃ (r : Byte) (s : State) (d : RegIdx), d.val = r.toNat ∧
    s.pc + 1 < s.cfg.memSize := ⟨7, start 256 254 [] [], 7, by decide⟩

/-- FirstFailingCheckIsRaised: no check fails, and STORE's last check is the first to fail. -/
theorem witness_FirstFailingCheckIsRaised :
    firstFault (start 256 253 [(0, 0xFF)] []) (.store 0 1) = none ∧
    firstFault (start 128 0 [(0, 0x80)] []) (.store 0 1) = some (.memRange, .address 128) := by decide

/-- MaskAndStatusAreRegisters: the last place three bytes fit, and the second selectors 0, 6 and 7. -/
theorem witness_MaskAndStatusAreRegisters : ∃ s : State, s.pc + 2 < s.cfg.memSize ∧
    ∀ b ∈ [(0 : RegIdx), 6, 7], ∃ rB : Byte, b.val = rB.toNat :=
  ⟨start 256 253 [] [], by decide, fun b _ => ⟨BitVec.ofNat 8 b.val, by revert b; decide⟩⟩

/-- RegisterWriteFrame: both instructions, completing and faulting. -/
theorem witness_RegisterWriteFrame : ∀ s ∈ [start 256 0 [(2, 3)] [], start 256 255 [] []],
    (∃ t, exec (.loadImmediate 2 9) s = .next t) ∧ ∃ t, exec (.multiply 2 9) s = .next t := by
  intro s hs
  exact ⟨⟨_, exec_ran (by revert s; decide)⟩, ⟨_, exec_ran (by revert s; decide)⟩⟩

theorem witness_HaltAndPrintFrame : ∀ s ∈ [start 256 0 [(2, 3)] [], start 256 255 [] []],
    (∃ t, exec .halt s = .next t) ∧ ∃ t, exec (.printRegister 2) s = .next t := by
  intro s hs
  exact ⟨⟨_, exec_ran (by revert s; decide)⟩, ⟨_, exec_ran (by revert s; decide)⟩⟩

/-- StoreFrame: a valid address register, and an invalid selector. -/
theorem witness_StoreFrame :
    (∃ (t : State) (a : RegIdx), exec (.store 2 3) (start 256 0 [(2, 0xFF)] []) = .next t ∧ a.val = (2 : Byte).toNat) ∧
    (∃ t, exec (.store 8 3) (start 256 0 [] []) = .next t ∧ 8 ≤ (8 : Byte).toNat) :=
  ⟨⟨_, 2, exec_ran (by decide), rfl⟩, ⟨_, exec_ran (by decide), by decide⟩⟩

theorem witness_OnlyStoreWritesMemory : ∃ (s t : State) (c : Nat), s.mem.wf = true ∧ step s = .next t ∧
    t.mem.read c ≠ s.mem.read c :=
  ⟨start 256 6 [(0, 0xFF), (1, 0x2A)] [0x80, 0, 1], _, 255, by decide, step_after (by decide), by decide⟩

/-- TickReadsOnlyItsOwnBytes: two memories that differ outside the instruction. -/
theorem witness_TickReadsOnlyItsOwnBytes : ∃ (s : State) (m : Memory) (t u : State),
    (∀ k, k < bytesRead s → m.read (s.pc + k) = s.mem.read (s.pc + k)) ∧ step s = .next t ∧
    step { s with mem := m } = .next u ∧ m ≠ s.mem :=
  ⟨start 256 0 [] [0x06, 3], [(0, 0x06), (1, 3), (2, 9)], _, _, by decide, step_after (by decide),
    step_after (by decide), by decide⟩

theorem witness_StoreIsSeenByNextFetch : ∃ (s : State) (a b : RegIdx), s.run = .running ∧ s.mem.wf = true ∧
    admissibleStoreOpcode s.cfg.opcST = true ∧ s.mem.read s.pc = s.cfg.opcST ∧
    (s.mem.read (s.pc + 1)).toNat = a.val ∧ (s.mem.read (s.pc + 2)).toNat = b.val ∧ s.pc + 3 < s.cfg.memSize ∧
    (s.interruptCheck.reg a).toNat = s.pc + 3 ∧ s.interruptCheck.reg b = 0x1B :=
  ⟨start 256 6 [(0, 9), (1, 0x1B)] [0x80, 0, 1, 0xFF], 0, 1, by decide⟩

/-- HandlersReadStatusAsZero: a core for each clause. -/
theorem witness_HandlersReadStatusAsZero :
    (∀ s ∈ [start 256 253 [(6, 0x5A)] [0x06, 6], start 256 253 [(0, 5), (6, 9)] [0x05, 0, 6],
        start 256 253 [(6, 9)] [0x05, 6, 6], start 256 253 [(1, 0x33), (6, 0x44)] [0x80, 6, 1],
        start 256 16 [(0, 0x30), (6, 9)] [0x80, 0, 6]],
      s.run = .running ∧ s.pc + 2 < s.cfg.memSize ∧ s.mem.wf = true ∧ admissibleStoreOpcode s.cfg.opcST = true) ∧
    ((start 256 16 [(0, 0x30), (6, 9)] [0x80, 0, 6]).interruptCheck.reg 0).toNat < 256 := by decide

theorem witness_LoadedStatusIsDeliveredNextTick : ∃ s : State, s.run = .running ∧ s.pc + 2 < s.cfg.memSize ∧
    s.mem.read s.pc = 0x04 ∧ s.mem.read (s.pc + 1) = 6 :=
  ⟨start 256 253 [(5, 5)] [0x04, 6, 7], by decide⟩

/-- ParametersNeverChange, DriverControlsOnlyTicking: a tick, and a run of host moves with lines raised between ticks. -/
theorem witness_host_run : ∃ (sys sys' : System) (t : State), step sys.core = .next t ∧ sys.started = true ∧
    System.moves [.step, .raiseLines 5, .driverTick] sys = .next sys' :=
  ⟨⟨start 256 0 [] [0x06, 3, 0x1B], false, true⟩, _, _, step_after (by decide), rfl, rfl⟩

/-- DriverControlsOnlyTicking: a driver that is not started. -/
theorem witness_DriverControlsOnlyTicking : ∃ (sys : System) (t : State), step sys.core = .next t ∧
    sys.started = false ∧ sys.ticked = false :=
  ⟨⟨start 256 0 [] [0x06, 3, 0x1B], false, false⟩, _, step_after (by decide), rfl, rfl⟩

/-- TickKeepsInvariant: a state other than reset that meets the invariant. -/
theorem witness_TickKeepsInvariant : ∃ s t : State, s.Inv ∧ step s = .next t :=
  ⟨start 256 6 [(0, 0x20), (1, 0x2A)] [0x80, 0, 1], _,
    ⟨by decide, by decide, by decide, by decide, by decide, by decide⟩, step_after (by decide)⟩

/-- ResetEstablishesInvariant, ConstructionEstablishesInvariant: a loaded program at the top of memory. -/
theorem witness_ResetEstablishesInvariant : ∃ (c : Config) (p : ResetParams), c.legal = true ∧ p.mem.wf = true ∧
    p.mem.below c.memSize = true ∧ p.mem ≠ [] :=
  ⟨⟨2, 0x80⟩, ⟨Vector.replicate 8 1, 0, [(0, 0x1B), (1, 7)]⟩, by decide⟩

/-- EveryRunHalts, at the least number of ticks. -/
theorem witness_EveryRunHalts : ∃ (s : State) (n : Nat), s.pc ≤ s.cfg.memSize ∧ s.cfg.memSize - s.pc < n ∧
    s.run = .running := ⟨start 8 8 [] [], 1, by decide⟩

/-- ModelFaultsAreNoResults: each end of a run, and a Running core. -/
theorem witness_ModelFaultsAreNoResults :
    (start 256 0 [] []).run = .running ∧ (after (start 256 0 [] [0x1B])).haltCause = .haltInstr ∧
    (after (start 256 0 [] [0xFF])).haltCause = .fault .invalidOpcode ∧
    (after (start 256 0 [] [0x06, 8])).haltCause = .fault .badRegister ∧
    (after (start 8 8 [] [])).haltCause = .fault .memRange := by decide

/-- RaiseLinesSetsPending: a Running and a Halted core. -/
theorem witness_RaiseLinesSetsPending :
    (start 256 0 [] [0x1B]).run = .running ∧ (after (start 256 0 [] [0x1B])).run = .halted := by decide

/-- PokeOnlyBeforeFirstTick: the last address, the first outside memory, and a system that has ticked. -/
theorem witness_PokeOnlyBeforeFirstTick : ∃ sys sys' : System, sys.ticked = false ∧ 255 < sys.core.cfg.memSize ∧
    sys.core.cfg.memSize ≤ 256 ∧ sys.core.mem.wf = true ∧ sys'.ticked = true :=
  ⟨⟨start 256 0 [] [0x1B], false, false⟩, ⟨start 256 0 [] [0x1B], true, false⟩, by decide⟩

/-- BootLoadsTheImage: an image that fills memory. -/
theorem witness_BootLoadsTheImage : ∃ (c : Config) (p : ResetParams) (image : List Byte), p.mem.wf = true ∧
    image.length ≤ c.memSize ∧ image.length = c.memSize :=
  ⟨⟨2, 0x80⟩, ⟨Vector.replicate 8 1, 0, [(1, 7)]⟩, [0x06, 0], by decide⟩

/-- HostMoveKeepsInvariant: a fresh system and an accepted poke. -/
theorem witness_HostMoveKeepsInvariant : ∃ (sys sys' : System) (m : HostMove), sys.Inv ∧ sys.move m = .next sys' :=
  ⟨System.construct ⟨256, 0x80⟩ ResetParams.zero, _, .poke 255 7,
    ⟨⟨by decide, by decide, by decide, by decide, by decide, by decide⟩, fun _ => by decide⟩, rfl⟩

/-- NothingWakesHaltedCore: a halted system that meets the invariant, and moves it accepts. -/
theorem witness_NothingWakesHaltedCore : ∃ (ms : List HostMove) (sys sys' : System), sys.Inv ∧
    sys.core.run = .halted ∧ System.moves ms sys = .next sys' ∧ ms.length = 4 :=
  ⟨[.start, .driverTick, .raiseLines 255, .step], ⟨after (start 256 0 [] [0x1B]), true, false⟩, _,
    ⟨⟨by decide, by decide, by decide, by decide, by decide, by decide⟩, fun h => by cases h⟩, by decide, rfl, rfl⟩

/-- EveryDrivenRunHalts: single steps and ticks of the started driver, with lines raised between them; the driver's tick
before `start` requests none. -/
theorem witness_EveryDrivenRunHalts : ∃ (ms : List HostMove) (sys sys' : System),
    sys.core.pc ≤ sys.core.cfg.memSize ∧ System.moves ms sys = .next sys' ∧
    sys.core.cfg.memSize - sys.core.pc < tickRequests sys.started ms ∧ tickRequests sys.started ms = 2 :=
  ⟨[.driverTick, .raiseLines 3, .step, .start, .raiseLines 1, .driverTick], ⟨start 4 3 [] [0x1B], false, false⟩, _,
    by decide, rfl, by decide, by decide⟩

/-- AssemblerReadsBackText: a line that assembles; immediates that are rejected, one above 255 and one that is no number;
register numbers that are rejected, one above 255. -/
theorem witness_AssemblerReadsBackText :
    assemble ['H', 'L', 'T'] = some .halt ∧ Names .loadImmediate ['L', 'D', 'I'] ∧
    parseNumber ['2', '5', '6'] = some 256 ∧ parseNumber ['-', '1'] = none ∧
    Names .store ['S', 'T'] ∧ digitsValue 10 0 ['8'] = some 8 ∧ digitsValue 10 0 ['2', '5', '6'] = some 256 :=
  ⟨by decide, .inr rfl, by decide, by decide, .inr rfl, by decide, by decide⟩

end Sys2Proof.Tests
end

section
/-! PROOFS. The invalid opcode bytes (30_encoding.md R67). -/

namespace Sys2Proof.Proofs.Encoding

open Sys2Proof.Machine

/-- A byte has no handler exactly when it is none of the five in the dispatch table, for any `OPC_ST`. -/
theorem decodeOpcode_eq_none_iff (opcST op : Byte) :
    decodeOpcode opcST op = none ↔ op ∉ [0x04, 0x05, 0x06, 0x1B, opcST] := by
  obtain ⟨k, hk, rfl⟩ | ⟨hd, hB, h4, h5, h6, hST⟩ := decodeOpcode_cases opcST op
  · have hmem : k.opcode opcST ∈ [0x04, 0x05, 0x06, 0x1B, opcST] := by cases k <;> simp [Handler.opcode]
    simp only [hk, reduceCtorEq, false_iff, not_not]
    exact hmem
  · simp only [hd, List.mem_cons, List.not_mem_nil, or_false, not_or, true_iff]
    exact ⟨h4, h5, h6, hB, hST⟩

/-- The five opcodes of the dispatch table, as numbers. -/
def tableOpcodes (opcST : Byte) : Finset ℕ := {opcST.toNat, 0x04, 0x05, 0x06, 0x1B}

theorem tableOpcodes_subset_range (opcST : Byte) : tableOpcodes opcST ⊆ Finset.range 256 := by
  have hlt := opcST.isLt
  simp [tableOpcodes, Finset.insert_subset_iff, hlt]

/-- An admissible `OPC_ST` is a fifth opcode, beside the four fixed ones. -/
theorem card_tableOpcodes {opcST : Byte} (h : admissibleStoreOpcode opcST = true) :
    (tableOpcodes opcST).card = 5 := by
  obtain ⟨h4, h5, h6, hB, -⟩ := (admissibleStoreOpcode_iff opcST).1 h
  have hnew : opcST.toNat ∉ ({0x04, 0x05, 0x06, 0x1B} : Finset ℕ) := by
    simp only [Finset.mem_insert, Finset.mem_singleton]
    bv_omega
  rw [tableOpcodes, Finset.card_insert_of_notMem hnew]
  rfl

theorem decodeOpcode_ofNat_eq_none_iff (opcST : Byte) {n : ℕ} (hn : n < 256) :
    decodeOpcode opcST (BitVec.ofNat 8 n) = none ↔ n ∉ tableOpcodes opcST := by
  rw [decodeOpcode_eq_none_iff]
  simp only [tableOpcodes, List.mem_cons, List.not_mem_nil, or_false, Finset.mem_insert, Finset.mem_singleton]
  bv_omega

/-- The bytes without a handler are the 256 byte values less the five of the dispatch table. -/
theorem length_filter_decodeOpcode_eq_none {opcST : Byte} (h : admissibleStoreOpcode opcST = true) :
    ((List.range 256).filter fun n => decodeOpcode opcST (BitVec.ofNat 8 n) == none).length = 251 := by
  have hset : ((List.range 256).filter fun n => decodeOpcode opcST (BitVec.ofNat 8 n) == none).toFinset =
      Finset.range 256 \ tableOpcodes opcST := by
    ext n
    simp only [List.mem_toFinset, List.mem_filter, List.mem_range, beq_iff_eq, Finset.mem_sdiff, Finset.mem_range]
    exact and_congr_right (decodeOpcode_ofNat_eq_none_iff opcST)
  rw [← List.toFinset_card_of_nodup (List.nodup_range.filter _), hset,
    Finset.card_sdiff_of_subset (tableOpcodes_subset_range opcST), card_tableOpcodes h, Finset.card_range]

/-- Settles O4: the invalid bytes are counted as the complement of the table's five opcodes, and fetching one takes
the tick's invalid-opcode path (40_cycle.md R87). -/
theorem invalidOpcodesAreTheOther251 : Obligations.InvalidOpcodesAreTheOther251 := by
  intro c hc
  have hST : admissibleStoreOpcode c.opcST = true := (Bool.and_eq_true_iff.1 hc).2
  refine ⟨length_filter_decodeOpcode_eq_none hST, decodeOpcode_eq_none_iff c.opcST, ?_⟩
  rintro s rfl hr hp hbyte
  exact ⟨_, step_invalid hr hp ((decodeOpcode_eq_none_iff _ _).2 hbyte), rfl, rfl⟩

end Sys2Proof.Proofs.Encoding
end

section
/-! PROOFS. The tick requested while Halted (40_cycle.md R81). -/

namespace Sys2Proof.Proofs.Cycle

open Sys2Proof.Machine

/-- Settles O6: a Halted core begins no tick, which is `step_halted` (40_cycle.md R81). -/
theorem haltedTickHasNoEffect : Obligations.HaltedTickHasNoEffect := by
  intro s hs
  exact step_halted hs

end Sys2Proof.Proofs.Cycle
end

section
/-! PROOFS. MULTIPLY's product and its completion (43_alu.md R121 to R123). -/

namespace Sys2Proof.Proofs.Alu

open Sys2Proof.Machine

/-- Truncating to a byte is the reduction modulo 256 of the multiply law (43_alu.md R122). -/
theorem alu_mul_eq_ofNat_mod (a b : Byte) : alu .mul a b = BitVec.ofNat 8 (a.toNat * b.toNat % 256) := by
  refine BitVec.eq_of_toNat_eq ?_
  simp [alu, trunc8]

/-- A selector byte that names a register is in range, so `RegSel` answers that register (40_cycle.md R88). -/
theorem regSel_eq_ok {s : State} {k : Nat} {b : Byte} {i : RegIdx} (hp : s.pc + k < s.cfg.memSize)
    (hi : i.val = b.toNat) : s.regSel k b = .ok i := by
  have hb : b.toNat < 8 := hi ▸ i.isLt
  rw [State.regSel_ok hp hb]
  exact congrArg Except.ok (Fin.ext hi.symm)

/-- How MULTIPLY completes when all its checks pass (43_alu.md R121). -/
theorem exec_multiply_completes {rA rB : Byte} {s : State} {a b : RegIdx} (ha : a.val = rA.toNat)
    (hb : b.val = rB.toNat) (hp : s.pc + 2 < s.cfg.memSize) :
    exec (.multiply rA rB) s = .next ((s.setReg a (alu .mul (s.reg a) (s.reg b))).advance 3) := by
  have hA : s.regSel 1 rA = .ok a := regSel_eq_ok (by omega) ha
  have hB : s.regSel 2 rB = .ok b := regSel_eq_ok hp hb
  change execMultiply rA rB s = _
  unfold execMultiply
  rw [hA, hB]
  rfl

/-- Settles O19: MULTIPLY completes with the ALU's product in its first register, and that product is reduced
modulo 256 with nothing recorded (43_alu.md R123). -/
theorem multiplyWrapsSilently : Obligations.MultiplyWrapsSilently := by
  intro rA rB s a b ha hb hp
  rw [exec_multiply_completes ha hb hp, alu_mul_eq_ofNat_mod]
  rfl

end Sys2Proof.Proofs.Alu
end

section
/-! PROOFS. What interrupt delivery leaves unchanged (60_exceptions.md R148). -/

namespace Sys2Proof.Proofs.Exceptions

open Sys2Proof.Machine

/-- The IS clear is the only register write of step 1 (40_cycle.md R84). -/
theorem interruptCheck_reg_of_ne {s : State} {i : RegIdx} (hi : i ≠ 6) : s.interruptCheck.reg i = s.reg i := by
  rw [State.interruptCheck_reg, if_neg hi.symm]

/-- IM is R5, so the clear of R6 does not reach it (10_state.md R24). -/
theorem interruptCheck_im (s : State) : s.interruptCheck.im = s.im :=
  interruptCheck_reg_of_ne (i := 5) (by decide)

/-- Settles O9: the fields that are no register are those of `s`, the registers differ in R6 alone, and what the history
grows by is the step's own `Interrupt` events. -/
theorem deliveryChangesNoState : Obligations.DeliveryChangesNoState := by
  intro s
  exact ⟨s.interruptCheck_pc, s.interruptCheck_run, s.interruptCheck_haltCause, interruptCheck_im s,
    s.interruptCheck_ir, s.interruptCheck_mem, s.interruptCheck_cfg, fun _ => interruptCheck_reg_of_ne,
    s.interruptEvents, s.interruptCheck_events⟩

end Sys2Proof.Proofs.Exceptions
end

section
/-! PROOFS. Decode and encode, both ways, and the dispatch table as rows (30_encoding.md R60 to R71). -/

namespace Sys2Proof.Proofs.Decoder

open Sys2Proof.Machine

/-- Decoding a byte that has a handler is taking that handler's operands (30_encoding.md R71). -/
theorem decode_of_handler {opcST op : Byte} {h : Handler} (hd : decodeOpcode opcST op = some h) (bs : List Byte) :
    decode opcST (op :: bs) = decodeOperands h bs := by
  simp only [decode, hd]

/-- Taking operands inverts writing them down: the handler fixes the constructor and its width the operand bytes
(30_encoding.md R61). -/
theorem decodeOperands_eq_instr_iff {h : Handler} {bs rest : List Byte} {i : Instr} :
    decodeOperands h bs = .instr i rest ↔ i.handler = h ∧ bs = i.operandBytes ++ rest := by
  constructor
  · intro hd
    unfold decodeOperands at hd
    split at hd
    · cases hd; exact ⟨rfl, rfl⟩
    · cases hd; exact ⟨rfl, rfl⟩
    · cases hd; exact ⟨rfl, rfl⟩
    · cases hd; exact ⟨rfl, rfl⟩
    · cases hd; exact ⟨rfl, rfl⟩
    · cases hd
  · rintro ⟨rfl, rfl⟩
    cases i <;> rfl

/-- Only `OPC_ST` can clash with a fixed opcode, and an admissible one does not, so an instruction's opcode byte leads
back to its handler and the operands follow. -/
theorem decode_encode {opcST : Byte} (hST : admissibleStoreOpcode opcST = true) (i : Instr) (rest : List Byte) :
    decode opcST (encode opcST i ++ rest) = .instr i rest :=
  (decode_of_handler (decodeOpcode_opcode hST i.handler) _).trans (decodeOperands_eq_instr_iff.2 ⟨rfl, rfl⟩)

/-- Bytes that decode are an encoding, whatever `OPC_ST` is: the table answers a handler only for its opcode byte. -/
theorem eq_encode_of_decode {opcST : Byte} {bs rest : List Byte} {i : Instr}
    (h : decode opcST bs = .instr i rest) : bs = encode opcST i ++ rest := by
  cases bs with
  | nil => cases h
  | cons op bs =>
    rcases decodeOpcode_cases opcST op with ⟨k, hk, rfl⟩ | ⟨hk, -⟩
    · rw [decode_of_handler hk] at h
      obtain ⟨rfl, rfl⟩ := decodeOperands_eq_instr_iff.1 h
      rfl
    · simp only [decode, hk, reduceCtorEq] at h

/-- Settles O1: the two directions are `eq_encode_of_decode` and the round trip `decode_encode`. -/
theorem decoderAcceptsExactlyTheEncodings : Obligations.DecoderAcceptsExactlyTheEncodings := by
  intro opcST hST bs rest i
  constructor
  · exact eq_encode_of_decode
  · rintro rfl
    exact decode_encode hST i rest

/-- Settles O2: each word but the last is an encoding, and 0xFF is none of the table's five opcodes. -/
theorem sampleWordsDecode : Obligations.SampleWordsDecode := by
  intro opcST hST
  refine ⟨decode_encode hST (.loadImmediate 0 8) [], decode_encode hST (.multiply 0 1) [],
    decode_encode hST (.printRegister 0) [], decode_encode hST .halt [], decode_encode hST (.store 0 1) [], ?_⟩
  have hFF : decodeOpcode opcST 0xFF = none := by
    obtain ⟨-, -, -, -, hne⟩ := (admissibleStoreOpcode_iff opcST).1 hST
    rw [Encoding.decodeOpcode_eq_none_iff]
    simpa using hne.symm
  simp only [decode, hFF]

/-- The rows' opcodes are distinct: the four fixed ones are, and an admissible `OPC_ST` is none of them. -/
theorem dispatchTable_pairwise {opcST : Byte} (hST : admissibleStoreOpcode opcST = true) :
    (dispatchTable opcST).Pairwise (fun a b => a.1 ≠ b.1) := by
  obtain ⟨h4, h5, h6, hB, -⟩ := (admissibleStoreOpcode_iff opcST).1 hST
  simpa [dispatchTable] using And.intro hB.symm ⟨h4.symm, h5.symm, h6.symm⟩

/-- `decodeOpcode` tests the rows of the table from the top (30_encoding.md R65, R71). -/
theorem decodeOpcode_eq_find? (opcST op : Byte) :
    decodeOpcode opcST op = ((dispatchTable opcST).find? fun row => row.1 == op).map Prod.snd := by
  simp only [decodeOpcode, dispatchTable, List.find?_cons, List.find?_nil, beq_eq_decide, @eq_comm _ op]
  split_ifs <;> simp only [*, decide_true, decide_false, Option.map_some, Option.map_none]

/-- Settles O3: the three clauses are facts about the rows, the lookup, and each handler's own opcode. -/
theorem dispatchTableIsUnambiguous : Obligations.DispatchTableIsUnambiguous := by
  intro opcST hST
  exact ⟨dispatchTable_pairwise hST, decodeOpcode_eq_find? opcST, decodeOpcode_opcode hST⟩

end Sys2Proof.Proofs.Decoder
end

section
/-! PROOFS. What a handler does, said once: the check that stops it, or the fields its completion changes
(40_cycle.md R88, R89; 60_exceptions.md R145). -/

namespace Sys2Proof.Proofs.Handlers

open Sys2Proof.Machine Sys2Proof.Expected

/-! ### Checks -/

/-- A selector operand passes both its checks and selects a register, or raises the first that fails
(60_exceptions.md R145, 5 and 6). -/
theorem regSel_checked (s : State) (k : Nat) (b : Byte) :
    (∃ d : RegIdx, d.val = b.toNat ∧ s.pc + k < s.cfg.memSize ∧ selectorFault s k b = none) ∨
    (∃ f, selectorFault s k b = some (f.kind, f.detail) ∧ s.regSel k b = .error f) := by
  rcases Nat.lt_or_ge (s.pc + k) s.cfg.memSize with hp | hp
  · rcases Nat.lt_or_ge b.toNat 8 with hb | hb
    · exact .inl ⟨⟨b.toNat, hb⟩, rfl, hp, by simp [selectorFault, Nat.not_le.2 hp, Nat.not_le.2 hb]⟩
    · exact .inr ⟨.badRegister b, by simp [selectorFault, hp, hb, Trap.kind, Trap.detail], State.regSel_bad hp hb⟩
  · exact .inr ⟨.memRange (s.pc + k), by simp [selectorFault, hp, Trap.kind, Trap.detail], State.regSel_range b hp⟩

/-- An address is inside memory, or its range check fails with the MEM_RANGE fault of that address. -/
theorem rangeFault_checked (s : State) (a : Nat) :
    (a < s.cfg.memSize ∧ rangeFault s a = none) ∨
    (s.cfg.memSize ≤ a ∧ rangeFault s a = some ((Trap.memRange a).kind, (Trap.memRange a).detail)) := by
  rcases Nat.lt_or_ge a s.cfg.memSize with ha | ha
  · exact .inl ⟨ha, by simp [rangeFault, ha]⟩
  · exact .inr ⟨ha, by simp [rangeFault, ha, Trap.kind, Trap.detail]⟩

/-- Where a selector names a register, the statements' `regValue` of it is that register's store address. -/
theorem regValue_toNat {b : Byte} {d : RegIdx} (hd : d.val = b.toNat) : (regValue s b).toNat = s.storeAddress d := by
  obtain ⟨n, hn⟩ := d
  obtain rfl : n = b.toNat := hd
  simp [regValue, State.storeAddress, State.reg, hn]

/-! ### Completion -/

section
variable {s t : State} {i : Instr}

/-- Where the premises of a completion hold, the handler's checks all pass and it completes so. -/
theorem exec_of_completes (h : Completes s t i) : exec i s = .next t := by
  cases i with
  | halt => exact congrArg Host.Outcome.next (Eq.symm h)
  | loadImmediate r imm =>
    obtain ⟨d, hd, hp, rfl⟩ := h
    rw [exec, execLoadImmediate, Alu.regSel_eq_ok (by omega) hd, State.operand_ok imm hp]
    rfl
  | multiply rA rB =>
    obtain ⟨a, b, ha, hb, hp, rfl⟩ := h
    exact Alu.exec_multiply_completes ha hb hp
  | printRegister r =>
    obtain ⟨d, hd, hp, rfl⟩ := h
    rw [exec, execPrintRegister, Alu.regSel_eq_ok hp hd]
    rfl
  | store rA rB =>
    obtain ⟨a, b, ha, hb, hp, haddr, rfl⟩ := h
    have hw : s.memWrite (s.storeAddress a) (s.reg b) =
        .ok { s with mem := s.mem.write (s.storeAddress a) (s.reg b) } := if_pos haddr
    rw [exec, execStore, Alu.regSel_eq_ok (by omega) ha, Alu.regSel_eq_ok hp hb]
    dsimp only [bind, Except.bind]
    rw [hw]
    rfl

/-- Every handler raises its first failing check, with no effect of the instruction, or no check fails and it
completes (60_exceptions.md R145; 40_cycle.md R93). -/
theorem exec_checked (i : Instr) (s : State) :
    (∃ f, firstFault s i = some (f.kind, f.detail) ∧ exec i s = .next (s.raise f (some s.ir))) ∨
    (firstFault s i = none ∧ ∃ t, Completes s t i) := by
  cases i with
  | halt => exact .inr ⟨rfl, _, rfl⟩
  | loadImmediate r imm =>
    rcases regSel_checked s 1 r with ⟨d, hd, hp, h1⟩ | ⟨f, h1, he⟩
    · rcases rangeFault_checked s (s.pc + 2) with ⟨h, h2⟩ | ⟨h, h2⟩
      · exact .inr ⟨by simp [firstFault, h1, h2], _, d, hd, h, rfl⟩
      · refine .inl ⟨.memRange (s.pc + 2), by simp [firstFault, h1, h2], ?_⟩
        rw [exec, execLoadImmediate, Alu.regSel_eq_ok hp hd, State.operand_bad imm h]
        rfl
    · exact .inl ⟨f, by simp [firstFault, h1], by rw [exec, execLoadImmediate, he]; rfl⟩
  | multiply rA rB =>
    rcases regSel_checked s 1 rA with ⟨a, ha, hp, h1⟩ | ⟨f, h1, he⟩
    · rcases regSel_checked s 2 rB with ⟨b, hb, h, h2⟩ | ⟨f, h2, he⟩
      · exact .inr ⟨by simp [firstFault, h1, h2], _, a, b, ha, hb, h, rfl⟩
      · exact .inl ⟨f, by simp [firstFault, h1, h2], by rw [exec, execMultiply, Alu.regSel_eq_ok hp ha, he]; rfl⟩
    · exact .inl ⟨f, by simp [firstFault, h1], by rw [exec, execMultiply, he]; rfl⟩
  | printRegister r =>
    rcases regSel_checked s 1 r with ⟨d, hd, hp, h1⟩ | ⟨f, h1, he⟩
    · exact .inr ⟨h1, _, d, hd, hp, rfl⟩
    · exact .inl ⟨f, h1, by rw [exec, execPrintRegister, he]; rfl⟩
  | store rA rB =>
    rcases regSel_checked s 1 rA with ⟨a, ha, hp, h1⟩ | ⟨f, h1, he⟩
    · rcases regSel_checked s 2 rB with ⟨b, hb, h, h2⟩ | ⟨f, h2, he⟩
      · rcases rangeFault_checked s (s.storeAddress a) with ⟨haddr, h3⟩ | ⟨haddr, h3⟩
        · exact .inr ⟨by simp [firstFault, h1, h2, h3, regValue_toNat ha], _, a, b, ha, hb, h, haddr, rfl⟩
        · have hw : s.memWrite (s.storeAddress a) (s.reg b) = .error (.memRange (s.storeAddress a)) :=
            if_neg (Nat.not_lt.2 haddr)
          refine .inl ⟨.memRange (s.storeAddress a), by simp [firstFault, h1, h2, h3, regValue_toNat ha], ?_⟩
          rw [exec, execStore, Alu.regSel_eq_ok hp ha, Alu.regSel_eq_ok h hb]
          dsimp only [bind, Except.bind]
          rw [hw]
          rfl
      · exact .inl ⟨f, by simp [firstFault, h1, h2], by rw [exec, execStore, Alu.regSel_eq_ok hp ha, he]; rfl⟩
    · exact .inl ⟨f, by simp [firstFault, h1], by rw [exec, execStore, he]; rfl⟩

/-- Every handler answers a next state. -/
theorem exec_next (i : Instr) (s : State) : ∃ t, exec i s = .next t := by
  rcases exec_checked i s with ⟨f, -, he⟩ | ⟨-, t, ht⟩
  · exact ⟨_, he⟩
  · exact ⟨t, exec_of_completes ht⟩

/-! ### What a completion leaves and changes -/

/-- No handler writes the parameters or `ir`, and a completion advances `pc` by the width (40_cycle.md R89). -/
theorem completes_frame (h : Completes s t i) : t.cfg = s.cfg ∧ t.ir = s.ir ∧ t.pc = s.pc + i.width := by
  cases i with
  | halt => obtain rfl := h; exact ⟨rfl, rfl, rfl⟩
  | loadImmediate => obtain ⟨d, -, -, rfl⟩ := h; exact ⟨rfl, rfl, rfl⟩
  | multiply => obtain ⟨a, b, -, -, -, rfl⟩ := h; exact ⟨rfl, rfl, rfl⟩
  | printRegister => obtain ⟨d, -, -, rfl⟩ := h; exact ⟨rfl, rfl, rfl⟩
  | store => obtain ⟨a, b, -, -, -, -, rfl⟩ := h; exact ⟨rfl, rfl, rfl⟩

/-- HALT alone writes the run state and its cause (41_control.md R100). -/
theorem completes_run (h : Completes s t i) :
    (i = .halt ∧ t.run = .halted ∧ t.haltCause = .haltInstr) ∨
    (i ≠ .halt ∧ t.run = s.run ∧ t.haltCause = s.haltCause) := by
  cases i with
  | halt => obtain rfl := h; exact .inl ⟨rfl, rfl, rfl⟩
  | loadImmediate => obtain ⟨d, -, -, rfl⟩ := h; exact .inr ⟨nofun, rfl, rfl⟩
  | multiply => obtain ⟨a, b, -, -, -, rfl⟩ := h; exact .inr ⟨nofun, rfl, rfl⟩
  | printRegister => obtain ⟨d, -, -, rfl⟩ := h; exact .inr ⟨nofun, rfl, rfl⟩
  | store => obtain ⟨a, b, -, -, -, -, rfl⟩ := h; exact .inr ⟨nofun, rfl, rfl⟩

/-- PRINT-REGISTER alone emits, one `Output` (44_output.md R130). -/
theorem completes_events (h : Completes s t i) :
    t.events = s.events ∨ ∃ v, t.events = s.events ++ [.output v] := by
  cases i with
  | halt => obtain rfl := h; exact .inl rfl
  | loadImmediate => obtain ⟨d, -, -, rfl⟩ := h; exact .inl rfl
  | multiply => obtain ⟨a, b, -, -, -, rfl⟩ := h; exact .inl rfl
  | printRegister => obtain ⟨d, -, -, rfl⟩ := h; exact .inr ⟨_, rfl⟩
  | store => obtain ⟨a, b, -, -, -, -, rfl⟩ := h; exact .inl rfl

/-- STORE alone writes memory, one byte inside it (20_memory.md, section 2). -/
theorem completes_mem (h : Completes s t i) :
    t.mem = s.mem ∨
    ∃ (rA rB : Byte) (a b : RegIdx), i = .store rA rB ∧ a.val = rA.toNat ∧ b.val = rB.toNat ∧
      s.storeAddress a < s.cfg.memSize ∧ t.mem = s.mem.write (s.storeAddress a) (s.reg b) := by
  cases i with
  | halt => obtain rfl := h; exact .inl rfl
  | loadImmediate => obtain ⟨d, -, -, rfl⟩ := h; exact .inl rfl
  | multiply => obtain ⟨a, b, -, -, -, rfl⟩ := h; exact .inl rfl
  | printRegister => obtain ⟨d, -, -, rfl⟩ := h; exact .inl rfl
  | store => obtain ⟨a, b, ha, hb, -, haddr, rfl⟩ := h; exact .inr ⟨_, _, a, b, rfl, ha, hb, haddr, rfl⟩

/-- A completed instruction lies inside memory; HALT, of one byte, where the byte at `pc` does. -/
theorem completes_inMemory (hp : s.pc < s.cfg.memSize) (h : Completes s t i) : s.pc + i.width ≤ s.cfg.memSize := by
  cases i with
  | halt => exact hp
  | loadImmediate => obtain ⟨-, -, h2, -⟩ := h; exact h2
  | multiply => obtain ⟨-, -, -, -, h2, -⟩ := h; exact h2
  | printRegister => obtain ⟨-, -, h1, -⟩ := h; exact h1
  | store => obtain ⟨-, -, -, -, h2, -, -⟩ := h; exact h2

end

/-- Settles O22: a handler raises its first failing check or completes, and a completion sets `pc` and the cause as the
two frame lemmas say. -/
theorem firstFailingCheckIsRaised : Obligations.FirstFailingCheckIsRaised := by
  intro i s
  rcases exec_checked i s with ⟨f, hf, he⟩ | ⟨hnone, t, ht⟩
  · refine ⟨fun k d hkd => ?_, fun h => absurd (hf.symm.trans h) nofun⟩
    obtain ⟨rfl, rfl⟩ := Prod.mk.inj (Option.some.inj (hf.symm.trans hkd))
    exact he
  · refine ⟨fun k d hkd => absurd (hnone.symm.trans hkd) nofun, fun _ => ⟨t, exec_of_completes ht, ?_⟩⟩
    obtain ⟨-, -, hpc⟩ := completes_frame ht
    refine ⟨hpc, ?_⟩
    rcases completes_run ht with ⟨hi, -, hc⟩ | ⟨hi, -, hc⟩
    · rw [if_pos hi, hc]
    · rw [if_neg hi, hc]

end Sys2Proof.Proofs.Handlers
end

section
/-! PROOFS. What a running tick does, said once, and the statements of 40_cycle.md that follow from it. -/

namespace Sys2Proof.Proofs.Tick

open Sys2Proof.Machine Sys2Proof.Expected Sys2Proof.Proofs.Handlers

/-! ### Where a fault is taken -/

/-- The state in which a tick that starts in `s` takes a fault: after step 1, and after the fetch where it succeeds
(the spec's decision D20). -/
def faultState (s : State) : State := if s.pc < s.cfg.memSize then s.fetched else s.interruptCheck

/-- The opcode in the report of a fault: the fetched byte, none where the fetch raised (60_exceptions.md R141). -/
def faultOpcode (s : State) : Option Byte := if s.pc < s.cfg.memSize then some (s.mem.read s.pc) else none

section
variable (s : State) (j : RegIdx)

@[simp] theorem faultState_cfg : (faultState s).cfg = s.cfg := by unfold faultState; split <;> rfl
@[simp] theorem faultState_pc : (faultState s).pc = s.pc := by unfold faultState; split <;> rfl
@[simp] theorem faultState_mem : (faultState s).mem = s.mem := by unfold faultState; split <;> rfl
@[simp] theorem faultState_events : (faultState s).events = s.events ++ s.interruptEvents := by
  unfold faultState; split <;> rfl
@[simp] theorem faultState_reg : (faultState s).reg j = s.interruptCheck.reg j := by
  unfold faultState; split <;> rfl

end

/-- A fault that a handler raises carries the detail its kind asks for (60_exceptions.md R141). -/
theorem detailFits_of_handlerTrap {s : State} {f : Trap} (h : s.HandlerTrap f) : DetailFits s f.kind f.detail := by
  cases f with
  | invalidOpcode => cases h
  | badRegister b => exact ⟨b, rfl, h⟩
  | memRange a => exact ⟨a, rfl, h⟩

/-! ### The inversion of a running tick -/

/-- A tick leaves a state as it was, or it is a running tick. -/
theorem step_idle_or_running {s t : State} (h : step s = .next t) : (s.run = .halted ∧ t = s) ∨ s.run = .running := by
  cases hr : s.run with
  | halted =>
    rw [step_halted hr] at h
    injection h with h
    exact .inl ⟨rfl, h.symm⟩
  | running => exact .inr rfl

/-- A running tick takes one fault, or it completes the instruction at `pc`. -/
theorem tick_cases {s t : State} (hr : s.run = .running) (h : step s = .next t) :
    (∃ f, DetailFits s f.kind f.detail ∧ t = (faultState s).raise f (faultOpcode s)) ∨
    (∃ k, s.pc < s.cfg.memSize ∧ decodeOpcode s.cfg.opcST (s.mem.read s.pc) = some k ∧
      Completes s.fetched t (s.instrAt k)) := by
  rcases step_cases h with ⟨hh, -⟩ | ⟨-, hp, rfl⟩ | ⟨-, hp, -, rfl⟩ | ⟨k, -, hp, hd, ⟨f, hf, rfl⟩ | hc⟩
  · rw [hr] at hh; cases hh
  · exact .inl ⟨.memRange s.pc, ⟨s.pc, rfl, hp⟩, by simp [faultState, faultOpcode, Nat.not_lt.2 hp]⟩
  · exact .inl ⟨.invalidOpcode, rfl, by simp [faultState, faultOpcode, hp]⟩
  · exact .inl ⟨f, detailFits_of_handlerTrap hf, by simp [faultState, faultOpcode, hp]⟩
  · exact .inr ⟨k, hp, hd, hc⟩

theorem instrAt_handler (s : State) (k : Handler) : (s.instrAt k).handler = k := by
  cases k <;> rfl

theorem instrAt_width (s : State) (k : Handler) : (s.instrAt k).width = k.width :=
  congrArg Handler.width (instrAt_handler s k)

/-- The byte at `pc` that the dispatch table gives a handler is that handler's opcode (30_encoding.md R65). -/
theorem eq_opcode_of_decodeOpcode {opcST op : Byte} {k : Handler} (h : decodeOpcode opcST op = some k) :
    op = k.opcode opcST := by
  rcases decodeOpcode_cases opcST op with ⟨k', hk, hop⟩ | ⟨hnone, -⟩
  · rw [hk] at h
    injection h with h
    exact h ▸ hop
  · rw [hnone] at h
    cases h

/-- A running tick completes where the instruction at `pc` does. -/
theorem step_of_completes {s t : State} {k : Handler} (hr : s.run = .running) (hp : s.pc < s.cfg.memSize)
    (hd : decodeOpcode s.cfg.opcST (s.mem.read s.pc) = some k) (h : Completes s.fetched t (s.instrAt k)) :
    step s = .next t :=
  (step_handler hr hp hd).trans (exec_of_completes h)

/-! ### Steps 2 to 5 of the tick -/

/-- Settles O14: each of the ways a tick can start answers a next state, and so does every handler. -/
theorem everyTickAnswersNext : Obligations.EveryTickAnswersNext := by
  intro s
  cases hr : s.run with
  | halted => exact ⟨s, step_halted hr⟩
  | running =>
    rcases Nat.lt_or_ge s.pc s.cfg.memSize with hp | hp
    · cases hd : decodeOpcode s.cfg.opcST (s.mem.read s.pc) with
      | none => exact ⟨_, step_invalid hr hp hd⟩
      | some k =>
        rw [step_handler hr hp hd]
        exact exec_next _ _
    · exact ⟨_, step_fetch_fault hr hp⟩

/-- Settles O12: this is `step_invalid`, its fault written out field by field. -/
theorem invalidOpcodeFaultPath : Obligations.InvalidOpcodeFaultPath := by
  intro s hr hp hd
  exact ⟨step_invalid hr hp hd, rfl⟩

/-- Settles O13: after the fetch the tick decodes the window, which is the three bytes at `pc` (log 8). -/
theorem tickRunsTheDecodedInstruction : Obligations.TickRunsTheDecodedInstruction := by
  intro s i rest hr hp hd
  have hdec : s.fetched.decodeFetched = .execute i s.fetched := by
    unfold State.decodeFetched
    rw [State.fetched_cfg, State.fetched_window, State.window_eq, hd]
  unfold step
  rw [beginTick_fetched hr hp, hdec]
  rfl

/-- A running tick whose fetch succeeds loads `ir`, and nothing later in the tick writes it (40_cycle.md R85). -/
theorem tick_ir {s t : State} (hr : s.run = .running) (hp : s.pc < s.cfg.memSize) (h : step s = .next t) :
    t.ir = s.mem.read s.pc := by
  rcases tick_cases hr h with ⟨f, -, rfl⟩ | ⟨k, -, -, hc⟩
  · simp [faultState, hp]
  · obtain ⟨-, hir, -⟩ := completes_frame hc
    exact hir

/-- Settles O11: `tick_ir` inside memory, and the fault path of the fetch outside it. -/
theorem fetchLoadsInstructionRegister : Obligations.FetchLoadsInstructionRegister := by
  intro s hr
  refine ⟨fun hp => ?_, fun hp => ⟨step_fetch_fault hr hp, rfl⟩⟩
  obtain ⟨t, ht⟩ := everyTickAnswersNext s
  exact ⟨t, ht, tick_ir hr hp ht⟩

/-- Settles O16: a completion advances `pc` by the width and leaves a cause that is no fault, a fault leaves `pc`. -/
theorem handlerAdvancesByWidth : Obligations.HandlerAdvancesByWidth := by
  refine ⟨rfl, rfl, rfl, rfl, rfl, fun s t h hr hnone hp hd ht => ?_⟩
  rcases tick_cases hr ht with ⟨f, -, rfl⟩ | ⟨k, -, hk, hc⟩
  · exact ⟨fun hno => absurd rfl (hno f.kind), fun _ _ => faultState_pc s⟩
  · obtain rfl : k = h := Option.some.inj (hk.symm.trans hd)
    obtain ⟨-, -, hpc⟩ := completes_frame hc
    refine ⟨fun _ => hpc.trans (congrArg (s.pc + ·) (instrAt_width s k)), fun j hj => ?_⟩
    rcases completes_run hc with ⟨-, -, hcause⟩ | ⟨-, -, hcause⟩
    · rw [hcause] at hj; cases hj
    · rw [hcause, State.fetched_haltCause, hnone] at hj; cases hj

/-! ### Halting and faults -/

/-- A Halted core stays as it is, however many ticks are requested (40_cycle.md R81). -/
theorem run_halted {s : State} (h : s.run = .halted) (n : Nat) : Sys2Proof.core.run n s = .next s := by
  induction n with
  | zero => rfl
  | succ n ih =>
    have hs : Sys2Proof.core.step s = .next s := step_halted h
    simp only [Host.Core.run, hs]
    exact ih

/-- A running tick that ends Halted took a fault, or completed HALT. -/
theorem tick_halted_cases {s t : State} (hr : s.run = .running) (h : step s = .next t) (ht : t.run = .halted) :
    (t.haltCause = .haltInstr ∧ s.mem.read s.pc = 0x1B ∧ t.pc = s.pc + 1) ∨ ∃ k, t.haltCause = .fault k := by
  rcases tick_cases hr h with ⟨f, -, rfl⟩ | ⟨k, -, hd, hc⟩
  · exact .inr ⟨f.kind, rfl⟩
  · obtain ⟨-, -, hpc⟩ := completes_frame hc
    rcases completes_run hc with ⟨hi, -, hcause⟩ | ⟨-, hrun, -⟩
    · obtain rfl : k = .halt := (instrAt_handler s k).symm.trans (congrArg Instr.handler hi)
      exact .inl ⟨hcause, eq_opcode_of_decodeOpcode hd, hpc⟩
    · rw [ht, State.fetched_run, hr] at hrun
      cases hrun

/-- Settles O7: terminal by `run_halted`, and the cause is that of the tick's only two ways to end Halted. -/
theorem haltedIsTerminal : Obligations.HaltedIsTerminal := by
  intro s t hr h ht
  refine ⟨run_halted ht, ?_⟩
  rcases tick_halted_cases hr h ht with hhalt | ⟨k, hk⟩
  · exact .inl hhalt
  · cases k with
    | invalidOpcode => exact .inr (.inl hk)
    | badRegister => exact .inr (.inr (.inl hk))
    | memRange => exact .inr (.inr (.inr hk))

/-- Settles O15: the fault case of `tick_cases` is the precise state, and a completion's cause is no fault. -/
theorem faultsArePrecise : Obligations.FaultsArePrecise := by
  refine ⟨fun s => ⟨linesOf s.masked, rfl⟩, fun s t hr h ht => ?_, fun s t k hr hnone h hk => ?_⟩
  · exact (tick_halted_cases hr h ht).imp_left And.left
  · rcases tick_cases hr h with ⟨f, hfits, rfl⟩ | ⟨j, -, -, hc⟩
    · obtain rfl : f.kind = k := HaltCause.fault.inj hk
      exact ⟨f.detail, rfl, hfits⟩
    · rcases completes_run hc with ⟨-, -, hcause⟩ | ⟨-, -, hcause⟩
      · rw [hcause] at hk; cases hk
      · rw [hcause, State.fetched_haltCause, hnone] at hk; cases hk

/-! ### Step 1: interrupts -/

/-- The history after a running tick: step 1's events, then at most one that is no `Interrupt`. -/
theorem tick_events {s t : State} (hr : s.run = .running) (h : step s = .next t) :
    ∃ es, t.events = s.events ++ s.interruptEvents ++ es ∧ es.length ≤ 1 ∧ ∀ i, Event.interrupt i ∉ es := by
  rcases tick_cases hr h with ⟨f, -, rfl⟩ | ⟨k, -, -, hc⟩
  · exact ⟨_, by rw [State.raise_events, faultState_events], le_rfl, by simp⟩
  · rcases completes_events hc with he | ⟨v, he⟩
    · exact ⟨[], by rw [he, State.fetched_events, List.append_nil], Nat.zero_le 1, by simp⟩
    · exact ⟨[.output v], by rw [he, State.fetched_events], le_rfl, by simp⟩

theorem mem_interruptEvents (s : State) (i : Line) : .interrupt i ∈ s.interruptEvents ↔ s.masked.getLsb i = true := by
  simp [State.interruptEvents, mem_linesOf]

/-- The `Interrupt` events that a running tick adds are those of the masked lines (40_cycle.md R82, R83). -/
theorem interrupt_mem_new_iff {s t : State} (hr : s.run = .running) (h : step s = .next t) (i : Line) :
    .interrupt i ∈ t.events.drop s.events.length ↔ s.masked.getLsb i = true := by
  obtain ⟨es, he, -, hno⟩ := tick_events hr h
  rw [he, List.append_assoc, List.drop_left, List.mem_append, mem_interruptEvents, or_iff_left (hno i)]

/-- Settles O8: step 1's events are the masked lines in ascending order. -/
theorem tickEmitsMaskedLinesFirst : Obligations.TickEmitsMaskedLinesFirst := by
  intro s t hr h
  obtain ⟨es, he, hlen, hno⟩ := tick_events hr h
  exact ⟨linesOf s.masked, es, he, mem_linesOf s.masked, linesOf_ascending s.masked, hlen, hno⟩

/-- Settles O5: the values are those of the reset state, and the history of the first tick is all new. -/
theorem resetEntryPointAndFirstTick : Obligations.ResetEntryPointAndFirstTick := by
  intro c p hc
  refine ⟨rfl, rfl, rfl, rfl, rfl, rfl, ?_⟩
  have hsize : 1 ≤ c.memSize := of_decide_eq_true (Bool.and_eq_true_iff.1 hc).1
  obtain ⟨t, ht⟩ := everyTickAnswersNext (State.resetWith c p)
  refine ⟨t, ht, tick_ir (s := State.resetWith c p) rfl hsize ht, fun i => ?_⟩
  have hnew := interrupt_mem_new_iff rfl ht i
  rwa [State.masked, BitVec.and_comm] at hnew

/-- Step 1 clears IS, whatever the mask (40_cycle.md R84). -/
@[simp] theorem interruptCheck_reg_six (s : State) : s.interruptCheck.reg 6 = 0 := by
  rw [State.interruptCheck_reg, if_pos rfl]

@[simp] theorem fetched_is (s : State) : s.fetched.is = 0 := interruptCheck_reg_six s

/-- A product with a zero first factor is zero, so MULTIPLY of the cleared IS leaves 0 (43_alu.md R122). -/
theorem alu_mul_zero_left (b : Byte) : alu .mul 0 b = 0 := by simp [alu, trunc8]

theorem alu_mul_zero_right (a : Byte) : alu .mul a 0 = 0 := by simp [alu, trunc8]

/-- A completion in a state whose IS is 0 leaves it 0, unless it is LOAD-IMMEDIATE into R6. -/
theorem completes_is {s t : State} {i : Instr} (hs : s.is = 0) (h : Completes s t i) :
    t.is = 0 ∨ ∃ r imm : Byte, i = .loadImmediate r imm ∧ r.toNat = 6 ∧ t.is = imm := by
  cases i with
  | halt => obtain rfl := h; exact .inl hs
  | printRegister => obtain ⟨d, -, -, rfl⟩ := h; exact .inl hs
  | store => obtain ⟨a, b, -, -, -, -, rfl⟩ := h; exact .inl hs
  | loadImmediate r imm =>
    obtain ⟨d, hd, -, rfl⟩ := h
    by_cases h6 : d = 6
    · subst h6
      exact .inr ⟨r, imm, rfl, hd.symm, State.reg_setReg_same ..⟩
    · left
      rw [State.is, State.advance_reg, State.reg_setReg, if_neg h6]
      exact hs
  | multiply rA rB =>
    obtain ⟨a, b, -, -, -, rfl⟩ := h
    left
    rw [State.is, State.advance_reg, State.reg_setReg]
    split
    · next h6 => rw [h6, show s.reg 6 = 0 from hs, alu_mul_zero_left]
    · exact hs

/-- Settles O10: step 1 clears IS, a fault leaves it, and of the handlers only LOAD-IMMEDIATE sets it again. -/
theorem statusClearedUnlessLoaded : Obligations.StatusClearedUnlessLoaded := by
  intro s t hr h
  rcases tick_cases hr h with ⟨f, -, rfl⟩ | ⟨k, -, hd, hc⟩
  · left
    rw [State.is, State.raise_reg, faultState_reg, interruptCheck_reg_six]
  · refine (completes_is (fetched_is s) hc).imp_right ?_
    rintro ⟨r, imm, hi, hr6, his⟩
    obtain rfl : k = .loadImmediate := (instrAt_handler s k).symm.trans (congrArg Instr.handler hi)
    obtain ⟨rfl, rfl⟩ := Instr.loadImmediate.inj hi
    exact ⟨eq_opcode_of_decodeOpcode hd, BitVec.eq_of_toNat_eq hr6, his⟩

end Sys2Proof.Proofs.Tick
end

section
/-! PROOFS. Results, exceptions and frames of the five instructions (41_control.md to 44_output.md). -/

namespace Sys2Proof.Proofs.Instructions

open Sys2Proof.Machine Sys2Proof.Expected Sys2Proof.Proofs.Handlers

/-! ### Results -/

/-- Settles O17: HALT has no check, so it completes in every state. -/
theorem haltResult : Obligations.HaltResult := by
  intro s
  exact exec_of_completes (i := .halt) rfl

theorem exec_loadImmediate_completes {r imm : Byte} {s : State} {d : RegIdx} (hd : d.val = r.toNat)
    (hp : s.pc + 2 < s.cfg.memSize) : exec (.loadImmediate r imm) s = .next ((s.setReg d imm).advance 3) :=
  exec_of_completes ⟨d, hd, hp, rfl⟩

/-- The fault that a handler takes is the one its first failing check names. -/
theorem exec_of_firstFault {i : Instr} {s : State} {k : FaultKind} {d : ReportDetail}
    (h : firstFault s i = some (k, d)) : exec i s = .next (faulted s k (some s.ir) d) :=
  (firstFailingCheckIsRaised i s).1 k d h

/-- Settles O18: each exception is the first failing check under its premises. -/
theorem loadImmediateResult : Obligations.LoadImmediateResult := by
  intro r imm s
  refine ⟨fun _ => rfl, fun d hd hp => exec_loadImmediate_completes hd hp, fun hp => ?_, fun hp hr => ?_,
    fun hp hr hp2 => ?_⟩
  · exact exec_of_firstFault (by simp [firstFault, selectorFault, hp])
  · exact exec_of_firstFault (by simp [firstFault, selectorFault, Nat.not_le.2 hp, hr])
  · exact exec_of_firstFault
      (by simp [firstFault, selectorFault, rangeFault, Nat.not_le.2 hp, Nat.not_le.2 hr, hp2])

/-- Settles O20: the new memory is the canonical write of the stored byte. -/
theorem storeResult : Obligations.StoreResult := by
  intro rA rB s a b ha hb hp haddr hwf
  refine ⟨s.mem.write (s.storeAddress a) (s.reg b), exec_of_completes ⟨a, b, ha, hb, hp, haddr, rfl⟩,
    Memory.wf_write hwf _ _, fun c => ?_⟩
  rw [Memory.read_write hwf, State.storeAddress]
  exact if_congr eq_comm rfl rfl

/-- Settles O21: with its one operand inside memory and valid, PRINT-REGISTER completes. -/
theorem printRegisterResult : Obligations.PrintRegisterResult := by
  intro r s d hd hp
  exact exec_of_completes (i := .printRegister r) ⟨d, hd, hp, rfl⟩

/-- IM and IS are two registers of the file, so a write of the one leaves the other (10_state.md R24, R25). -/
theorem setReg_five_six (s : State) (v : Byte) :
    (s.setReg 5 v).im = v ∧ (s.setReg 5 v).is = s.is ∧ (s.setReg 6 v).is = v ∧ (s.setReg 6 v).im = s.im := by
  refine ⟨State.reg_setReg_same .., ?_, State.reg_setReg_same .., ?_⟩
  · exact (State.reg_setReg ..).trans (if_neg (by decide))
  · exact (State.reg_setReg ..).trans (if_neg (by decide))

/-- Settles O23: both handlers end in one register write, and the product is reduced modulo 256. -/
theorem maskAndStatusAreRegisters : Obligations.MaskAndStatusAreRegisters := by
  intro v s hp
  obtain ⟨him, his, -, -⟩ := setReg_five_six s v
  obtain ⟨-, -, his', him'⟩ := setReg_five_six s v
  refine ⟨⟨_, exec_loadImmediate_completes (d := 5) rfl hp, him, his⟩,
    ⟨_, exec_loadImmediate_completes (d := 6) rfl hp, his', him'⟩, fun rB b hb => ?_⟩
  obtain ⟨him5, his5, -, -⟩ := setReg_five_six s (alu .mul s.im (s.reg b))
  obtain ⟨-, -, his6, him6⟩ := setReg_five_six s (alu .mul s.is (s.reg b))
  rw [← Alu.alu_mul_eq_ofNat_mod, ← Alu.alu_mul_eq_ofNat_mod]
  exact ⟨⟨_, Alu.exec_multiply_completes (a := 5) rfl hb hp, him5, his5⟩,
    ⟨_, Alu.exec_multiply_completes (a := 6) rfl hb hp, his6, him6⟩⟩

/-- The ALU's multiply is the product of bit vectors, whose width drops the high byte (43_alu.md R122). -/
theorem alu_mul_eq_mul (a b : Byte) : alu .mul a b = a * b := by
  refine BitVec.eq_of_toNat_eq ?_
  simp [alu, trunc8]

/-- Settles O24: the ring of bytes forgets the high byte and the sign alike. -/
theorem multiplyIsLowByteOfProduct : Obligations.MultiplyIsLowByteOfProduct := by
  intro a b
  refine ⟨?_, ?_, ?_, ?_⟩
  · refine BitVec.eq_of_toNat_eq ?_
    simp [alu, trunc8]
  · rw [alu_mul_eq_mul, alu_mul_eq_mul, BitVec.mul_comm]
  · rw [alu_mul_eq_mul, BitVec.ofInt_mul, BitVec.ofInt_toInt, BitVec.ofInt_toInt]
  · rw [alu_mul_eq_mul, BitVec.toNat_mul]

/-! ### Frames -/

/-- What taking a fault in a handler leaves, in the words of the frames. -/
theorem raise_quietOrFaulted (s : State) (f : Trap) : QuietOrFaulted s (s.raise f (some s.ir)) :=
  .inr ⟨f.kind, f.detail, rfl⟩

/-- The frame of a single register write followed by the `pc` advance. -/
theorem setReg_frame (s : State) (d : RegIdx) (v : Byte) (n : Nat) :
    (∀ j : RegIdx, j ≠ d → ((s.setReg d v).advance n).reg j = s.reg j) ∧
    QuietOrFaulted s ((s.setReg d v).advance n) :=
  ⟨fun j hj => (State.reg_setReg s d j v).trans (if_neg hj.symm), .inl ⟨rfl, rfl, rfl⟩⟩

/-- Settles O25: both handlers raise, or write the register their first operand selects. -/
theorem registerWriteFrame : Obligations.RegisterWriteFrame := by
  intro r q s t h
  have hcases : (∃ f, t = s.raise f (some s.ir)) ∨
      ∃ (d : RegIdx) (v : Byte), d.val = r.toNat ∧ t = (s.setReg d v).advance 3 := by
    rcases h with h | h
    · rcases exec_cases h with ⟨f, -, hf⟩ | ⟨d, hd, -, ht⟩
      · exact .inl ⟨f, hf⟩
      · exact .inr ⟨d, q, hd, ht⟩
    · rcases exec_cases h with ⟨f, -, hf⟩ | ⟨a, b, ha, -, -, ht⟩
      · exact .inl ⟨f, hf⟩
      · exact .inr ⟨a, _, ha, ht⟩
  rcases hcases with ⟨f, rfl⟩ | ⟨d, v, hd, rfl⟩
  · exact ⟨fun _ _ => rfl, fun _ => rfl, rfl, rfl, raise_quietOrFaulted s f⟩
  · obtain ⟨hregs, hquiet⟩ := setReg_frame s d v 3
    exact ⟨fun j hj => hregs j fun e => hj (e ▸ hd), fun _ => rfl, rfl, rfl, hquiet⟩

/-- Settles O26: HALT writes run state, cause and `pc` alone; PRINT-REGISTER raises, or emits one `Output`. -/
theorem haltAndPrintFrame : Obligations.HaltAndPrintFrame := by
  intro r s t
  constructor
  · intro h
    rw [haltResult s] at h
    injection h with h
    subst h
    exact ⟨rfl, fun _ => rfl, rfl, rfl, rfl⟩
  · intro h
    rcases exec_cases h with ⟨f, -, rfl⟩ | ⟨d, hd, -, rfl⟩
    · exact ⟨rfl, fun _ => rfl, rfl, rfl, .inr ⟨f.kind, f.detail, rfl⟩⟩
    · exact ⟨rfl, fun _ => rfl, rfl, rfl, .inl ⟨rfl, rfl, d, hd, rfl⟩⟩

/-- Settles O27: a fault writes nothing, and a completed STORE one byte, at the address in the register that its first
selector, then below 8, names. -/
theorem storeFrame : Obligations.StoreFrame := by
  intro rA rB s t h
  rcases exec_cases h with ⟨f, -, rfl⟩ | ⟨a, b, ha, -, -, -, rfl⟩
  · exact ⟨rfl, rfl, rfl, raise_quietOrFaulted s f, fun _ _ _ _ => rfl, fun _ _ => rfl⟩
  · refine ⟨rfl, rfl, rfl, .inl ⟨rfl, rfl, rfl⟩, fun a' ha' c hc => ?_, fun hbad => ?_⟩
    · obtain rfl : a' = a := Fin.ext (ha'.trans ha.symm)
      exact Memory.read_write_other _ _ hc.symm
    · exact absurd a.isLt (Nat.not_lt.2 (ha ▸ hbad))

end Sys2Proof.Proofs.Instructions
end

section
/-! PROOFS. Rules of the whole machine: what writes and what reads memory, and what the next tick sees
(20_memory.md; 60_exceptions.md, section 2). -/

namespace Sys2Proof.Proofs.WholeMachine

open Sys2Proof.Machine Sys2Proof.Expected Sys2Proof.Proofs.Handlers Sys2Proof.Proofs.Tick

/-! ### Writes of memory -/

/-- A tick leaves memory as it was, or it is a STORE that completed. -/
theorem tick_mem {s t : State} (h : step s = .next t) :
    t.mem = s.mem ∨
    ∃ a b : RegIdx, s.mem.read s.pc = s.cfg.opcST ∧ a.val = (s.mem.read (s.pc + 1)).toNat ∧
      b.val = (s.mem.read (s.pc + 2)).toNat ∧ s.interruptCheck.storeAddress a < s.cfg.memSize ∧
      t.mem = s.mem.write (s.interruptCheck.storeAddress a) (s.interruptCheck.reg b) := by
  rcases step_idle_or_running h with ⟨-, rfl⟩ | hr
  · exact .inl rfl
  · rcases tick_cases hr h with ⟨f, -, rfl⟩ | ⟨k, -, hd, hc⟩
    · exact .inl (faultState_mem s)
    · refine (completes_mem hc).imp_right ?_
      rintro ⟨rA, rB, a, b, hi, ha, hb, haddr, hm⟩
      obtain rfl : k = .store := (instrAt_handler s k).symm.trans (congrArg Instr.handler hi)
      obtain ⟨rfl, rfl⟩ := Instr.store.inj hi
      exact ⟨a, b, eq_opcode_of_decodeOpcode hd, ha, hb, haddr, hm⟩

/-- Settles O28: in canonical memory a write changes the byte at its own address only, which is a register's value. -/
theorem onlyStoreWritesMemory : Obligations.OnlyStoreWritesMemory := by
  intro s t c hwf h hne
  rcases tick_mem h with hm | ⟨a, b, hop, ha, hb, -, hm⟩
  · exact absurd (congrArg (Memory.read · c) hm) hne
  · rw [hm, Memory.read_write hwf] at hne ⊢
    by_cases hc : s.interruptCheck.storeAddress a = c
    · rw [if_pos hc]
      exact ⟨hop, hc ▸ (s.interruptCheck.reg a).isLt, a, b, ha, hb, hc.symm, rfl⟩
    · rw [if_neg hc] at hne
      exact absurd rfl hne

/-! ### Reads of memory -/

/-- No check of a handler looks at memory. -/
theorem firstFault_withMem (s : State) (m : Memory) (i : Instr) :
    firstFault { s with mem := m } i = firstFault s i := by
  cases i <;> rfl

/-- A completion goes through under any memory, with the same result but for memory. -/
theorem completes_withMem {s t : State} {i : Instr} (m : Memory) (h : Completes s t i) :
    ∃ m', Completes { s with mem := m } { t with mem := m' } i := by
  cases i with
  | halt => obtain rfl := h; exact ⟨_, rfl⟩
  | loadImmediate => obtain ⟨d, hd, hp, rfl⟩ := h; exact ⟨_, d, hd, hp, rfl⟩
  | multiply => obtain ⟨a, b, ha, hb, hp, rfl⟩ := h; exact ⟨_, a, b, ha, hb, hp, rfl⟩
  | printRegister => obtain ⟨d, hd, hp, rfl⟩ := h; exact ⟨_, d, hd, hp, rfl⟩
  | store => obtain ⟨a, b, ha, hb, hp, haddr, rfl⟩ := h; exact ⟨_, a, b, ha, hb, hp, haddr, rfl⟩

/-- A handler's result does not depend on memory, but for memory itself. -/
theorem exec_withMem {s t : State} {i : Instr} (m : Memory) (h : exec i s = .next t) :
    ∃ m', exec i { s with mem := m } = .next { t with mem := m' } := by
  rcases exec_checked i s with ⟨f, hf, he⟩ | ⟨-, u, hu⟩
  · rw [he] at h
    injection h with h
    subst h
    exact ⟨m, Instructions.exec_of_firstFault ((firstFault_withMem s m i).trans hf)⟩
  · rw [exec_of_completes hu] at h
    injection h with h
    subst h
    obtain ⟨m', hm'⟩ := completes_withMem m hu
    exact ⟨m', exec_of_completes hm'⟩

/-- Memories that agree on a handler's own bytes hold the same instruction. -/
theorem instrAt_withMem {s : State} {m : Memory} {k : Handler}
    (h : ∀ j < k.width, m.read (s.pc + j) = s.mem.read (s.pc + j)) :
    State.instrAt { s with mem := m } k = s.instrAt k := by
  cases k with
  | halt => rfl
  | loadImmediate => exact congrArg₂ Instr.loadImmediate (h 1 (by decide)) (h 2 (by decide))
  | multiply => exact congrArg₂ Instr.multiply (h 1 (by decide)) (h 2 (by decide))
  | printRegister => exact congrArg Instr.printRegister (h 1 (by decide))
  | store => exact congrArg₂ Instr.store (h 1 (by decide)) (h 2 (by decide))

/-- Under a memory that agrees on the current instruction's own bytes the tick is the same, but for memory. -/
theorem step_withMem {s t : State} {m : Memory}
    (hm : ∀ k, k < bytesRead s → m.read (s.pc + k) = s.mem.read (s.pc + k)) (h : step s = .next t) :
    ∃ m', step { s with mem := m } = .next { t with mem := m' } := by
  rcases step_cases h with ⟨hr, rfl⟩ | ⟨hr, hp, rfl⟩ | ⟨hr, hp, hd, rfl⟩ | ⟨k, hr, hp, hd, -⟩
  · exact ⟨m, step_halted hr⟩
  · exact ⟨m, step_fetch_fault (s := { s with mem := m }) hr hp⟩
  · have hop : m.read s.pc = s.mem.read s.pc := hm 0 (by simp [bytesRead, hd])
    refine ⟨m, (step_invalid (s := { s with mem := m }) hr hp (hop ▸ hd)).trans ?_⟩
    simp only [State.fetched, hop]
    rfl
  · have hbytes : ∀ j < k.width, m.read (s.pc + j) = s.mem.read (s.pc + j) := by
      simpa only [bytesRead, hd] using hm
    have hop : m.read s.pc = s.mem.read s.pc := hbytes 0 (by cases k <;> decide)
    rw [step_handler hr hp hd] at h
    obtain ⟨m', he⟩ := exec_withMem m h
    refine ⟨m', (step_handler (s := { s with mem := m }) hr hp (hop ▸ hd)).trans ?_⟩
    rw [instrAt_withMem hbytes, ← he]
    simp only [State.fetched, hop]
    rfl

/-- Settles O29: the second run's state is the first's with another memory. -/
theorem tickReadsOnlyItsOwnBytes : Obligations.TickReadsOnlyItsOwnBytes := by
  intro s m t u hm ht hu
  obtain ⟨m', hm'⟩ := step_withMem hm ht
  rw [hm'] at hu
  injection hu with hu
  subst hu
  exact ⟨rfl, rfl, rfl, rfl, rfl, rfl⟩

/-! ### What the next tick and the handlers see -/

/-- A running tick whose byte at `pc` is a handler's opcode completes where the instruction does, for an admissible
`OPC_ST`. -/
theorem step_of_opcode {s t : State} {k : Handler} (hr : s.run = .running) (hp : s.pc < s.cfg.memSize)
    (hST : admissibleStoreOpcode s.cfg.opcST = true) (hop : s.mem.read s.pc = k.opcode s.cfg.opcST)
    (h : Completes s.fetched t (s.instrAt k)) : step s = .next t :=
  step_of_completes hr hp (hop ▸ decodeOpcode_opcode hST k) h

/-- The state after a tick that completes STORE. -/
def stored (s : State) (a b : RegIdx) : State :=
  ({ s.fetched with mem := s.mem.write (s.interruptCheck.storeAddress a) (s.interruptCheck.reg b) } : State).advance 3

/-- A running tick on STORE's bytes, with its address inside memory, writes the stored byte there. -/
theorem step_store {s : State} {a b : RegIdx} (hr : s.run = .running) (hp : s.pc + 2 < s.cfg.memSize)
    (hST : admissibleStoreOpcode s.cfg.opcST = true) (hop : s.mem.read s.pc = s.cfg.opcST)
    (ha : (s.mem.read (s.pc + 1)).toNat = a.val) (hb : (s.mem.read (s.pc + 2)).toNat = b.val)
    (haddr : s.interruptCheck.storeAddress a < s.cfg.memSize) : step s = .next (stored s a b) :=
  step_of_opcode (k := .store) hr (by omega) hST hop ⟨a, b, ha.symm, hb.symm, hp, haddr, rfl⟩

/-- The stored byte reads back. -/
theorem stored_read {s : State} {a : RegIdx} (b : RegIdx) (hwf : s.mem.wf = true) :
    (stored s a b).mem.read (s.interruptCheck.storeAddress a) = s.interruptCheck.reg b :=
  (Memory.read_write hwf ..).trans (if_pos rfl)

/-- A running tick on HALT's opcode halts, whatever `OPC_ST` is. -/
theorem step_halt {s : State} (hr : s.run = .running) (hp : s.pc < s.cfg.memSize) (hop : s.mem.read s.pc = 0x1B) :
    step s = .next ((s.fetched.haltBy .haltInstr).advance 1) :=
  step_of_completes (k := .halt) hr hp (hop ▸ rfl) rfl

/-- Settles O30: after the STORE `pc` is at the stored byte, which the next tick's fetch loads. -/
theorem storeIsSeenByNextFetch : Obligations.StoreIsSeenByNextFetch := by
  intro s a b hr hwf hST hop ha hb hp haddr
  have hstep : step s = .next (stored s a b) := step_store hr (by omega) hST hop ha hb (haddr.trans_lt hp)
  have hread : (stored s a b).mem.read (stored s a b).pc = s.interruptCheck.reg b :=
    (congrArg (stored s a b).mem.read haddr.symm).trans (stored_read b hwf)
  obtain ⟨u, hu⟩ := everyTickAnswersNext (stored s a b)
  refine ⟨stored s a b, u, hstep, hu, rfl, (tick_ir (s := stored s a b) hr hp hu).trans hread, fun hB => ?_⟩
  rw [step_halt (s := stored s a b) hr hp (hread.trans hB)] at hu
  injection hu with hu
  subst hu
  exact ⟨rfl, rfl⟩

/-- Settles O31: step 1 has cleared R6, which each handler then reads as 0. -/
theorem handlersReadStatusAsZero : Obligations.HandlersReadStatusAsZero := by
  intro s hr hp hwf hST
  have h6 : s.interruptCheck.reg 6 = 0 := interruptCheck_reg_six s
  have hp0 : s.pc < s.cfg.memSize := by omega
  refine ⟨fun hop hsel => ?_, fun a b hop ha hb hab => ?_, fun b hop hsel hb => ?_, fun a hop ha hsel haddr => ?_⟩
  · have hsel6 : (s.mem.read (s.pc + 1)).toNat = 6 := congrArg BitVec.toNat hsel
    refine ⟨_, step_of_opcode (k := .printRegister) hr hp0 hST hop ⟨6, hsel6.symm, by simp; omega, rfl⟩, ?_⟩
    simp [h6]
  · refine ⟨_, step_of_opcode (k := .multiply) hr hp0 hST hop ⟨a, b, ha.symm, hb.symm, hp, rfl⟩, ?_⟩
    refine (State.reg_setReg_same ..).trans ?_
    rw [State.fetched_reg, State.fetched_reg]
    rcases hab with rfl | rfl
    · rw [h6, alu_mul_zero_left]
    · rw [h6, alu_mul_zero_right]
  · have haddr : s.interruptCheck.storeAddress 6 = 0 := congrArg BitVec.toNat h6
    have hread := stored_read (a := 6) b hwf
    rw [haddr] at hread
    exact ⟨_, step_store hr hp hST hop (congrArg BitVec.toNat hsel) hb (by omega), hread⟩
  · exact ⟨_, step_store hr hp hST hop ha (congrArg BitVec.toNat hsel) haddr, (stored_read 6 hwf).trans h6⟩

/-- The state after a tick that completes LOAD-IMMEDIATE of `v` into R6. -/
def statusLoaded (s : State) (v : Byte) : State := (s.fetched.setReg 6 v).advance 3

/-- The lines pending and enabled then are those of `v & IM`: step 1 and the load leave IM. -/
theorem statusLoaded_masked (s : State) (v : Byte) : (statusLoaded s v).masked = v &&& s.im := by
  obtain ⟨-, -, his, him⟩ := Instructions.setReg_five_six s.fetched v
  exact congrArg₂ (· &&& ·) his (him.trans (Exceptions.interruptCheck_im s))

/-- Settles O32: LOAD-IMMEDIATE leaves the core Running, and the next tick adds the events of its masked lines. -/
theorem loadedStatusIsDeliveredNextTick : Obligations.LoadedStatusIsDeliveredNextTick := by
  intro s hr hp hop hsel
  have hstep : step s = .next (statusLoaded s (s.mem.read (s.pc + 2))) :=
    step_of_completes (k := .loadImmediate) hr (by omega) (hop ▸ rfl)
      ⟨6, (congrArg BitVec.toNat hsel).symm, hp, rfl⟩
  obtain ⟨u, hu⟩ := everyTickAnswersNext (statusLoaded s (s.mem.read (s.pc + 2)))
  refine ⟨_, u, hstep, hu, fun i => ?_⟩
  rw [interrupt_mem_new_iff (s := statusLoaded ..) hr hu i, statusLoaded_masked]

end Sys2Proof.Proofs.WholeMachine
end

section
/-! PROOFS. What every tick keeps, how a run ends and how its end is read (10_state.md R28, R32;
70_reset_and_hazards.md R179). -/

namespace Sys2Proof.Proofs.Invariant

open Sys2Proof.Machine Sys2Proof.Expected Sys2Proof.Proofs.Handlers Sys2Proof.Proofs.Tick

/-! ### Parameters and `pc` -/

section
variable {s t : State}

theorem step_cfg (h : step s = .next t) : t.cfg = s.cfg := by
  rcases step_idle_or_running h with ⟨-, rfl⟩ | hr
  · rfl
  · rcases tick_cases hr h with ⟨f, -, rfl⟩ | ⟨k, -, -, hc⟩
    · exact faultState_cfg s
    · obtain ⟨hcfg, -, -⟩ := completes_frame hc
      exact hcfg

/-- A completed instruction lies inside memory, so `pc` stops at `MEM_SIZE` (10_state.md R28). -/
theorem step_pc_le (hp : s.pc ≤ s.cfg.memSize) (h : step s = .next t) : t.pc ≤ s.cfg.memSize := by
  rcases step_idle_or_running h with ⟨-, rfl⟩ | hr
  · exact hp
  · rcases tick_cases hr h with ⟨f, -, rfl⟩ | ⟨k, hlt, -, hc⟩
    · exact (faultState_pc s).trans_le hp
    · obtain ⟨-, -, hpc⟩ := completes_frame hc
      exact hpc.trans_le (completes_inMemory (s := s.fetched) hlt hc)

theorem width_pos (k : Handler) : 0 < k.width := by
  cases k <;> decide

/-- A tick after which the core still runs has moved `pc` up: only a fault leaves it, and a fault halts. -/
theorem step_pc_lt (h : step s = .next t) (ht : t.run = .running) : s.pc < t.pc := by
  rcases step_idle_or_running h with ⟨hh, rfl⟩ | hr
  · rw [hh] at ht
    cases ht
  · rcases tick_cases hr h with ⟨f, -, rfl⟩ | ⟨k, -, -, hc⟩
    · cases ht
    · obtain ⟨-, -, hpc⟩ := completes_frame hc
      rw [hpc, instrAt_width]
      exact Nat.lt_add_of_pos_right (width_pos k)

/-- A tick after which the core still runs leaves less room above `pc`, inside the same memory. -/
theorem step_room_lt (hp : s.pc ≤ s.cfg.memSize) (h : step s = .next t) (ht : t.run = .running) :
    t.pc ≤ t.cfg.memSize ∧ t.cfg.memSize - t.pc < s.cfg.memSize - s.pc := by
  have hlt := step_pc_lt h ht
  have hle := step_pc_le hp h
  rw [step_cfg h]
  omega

end

/-- Settles O36, by induction on the number of ticks: a tick that does not halt leaves less room above `pc`. -/
theorem everyRunHalts : Obligations.EveryRunHalts := by
  intro s n
  induction n generalizing s with
  | zero => intro _ hn; exact absurd hn (Nat.not_lt_zero _)
  | succ n ih =>
    intro hp hn
    obtain ⟨t, ht⟩ := everyTickAnswersNext s
    have hrun : Sys2Proof.core.run (n + 1) s = Sys2Proof.core.run n t := by
      have hcore : Sys2Proof.core.step s = .next t := ht
      simp only [Host.Core.run, hcore]
    rw [hrun]
    cases hr : t.run with
    | halted => exact ⟨t, run_halted hr n, hr⟩
    | running =>
      obtain ⟨hle, hroom⟩ := step_room_lt hp ht hr
      exact ih t hle (by omega)

/-! ### The invariant -/

/-- A tick writes memory canonically and inside it. -/
theorem step_memory {s t : State} (hwf : s.mem.wf = true) (hin : s.mem.below s.cfg.memSize = true)
    (h : step s = .next t) : t.mem.wf = true ∧ t.mem.below s.cfg.memSize = true := by
  rcases WholeMachine.tick_mem h with hm | ⟨a, b, -, -, -, haddr, hm⟩
  · rw [hm]
    exact ⟨hwf, hin⟩
  · rw [hm]
    exact ⟨Memory.wf_write hwf _ _, Memory.below_write hin haddr _⟩

theorem reportKinds_append (es es' : List Event) : reportKinds (es ++ es') = reportKinds es ++ reportKinds es' :=
  List.filterMap_append

/-- Step 1 emits no report. -/
theorem reportKinds_interruptEvents (s : State) : reportKinds s.interruptEvents = [] := by
  simp [reportKinds, State.interruptEvents]

/-- The cause and the reports of a history fit the run state: clauses 5 and 6 of the core's invariant. -/
def CauseFits (s : State) : Prop :=
  (s.run = .running ↔ s.haltCause = .none) ∧ reportKinds s.events = s.haltCause.reports

/-- A fault adds the one report of its kind; a completion adds none and, but for HALT, keeps the cause. -/
theorem tick_causeFits {s t : State} (hs : CauseFits s) (hr : s.run = .running) (h : step s = .next t) :
    CauseFits t := by
  obtain ⟨hcause, hreports⟩ := hs
  have hnone : s.haltCause = .none := hcause.1 hr
  have hquiet : reportKinds (s.events ++ s.interruptEvents) = [] := by
    rw [reportKinds_append, reportKinds_interruptEvents, hreports, hnone]
    rfl
  rcases tick_cases hr h with ⟨f, -, rfl⟩ | ⟨k, -, -, hc⟩
  · refine ⟨iff_of_false nofun nofun, ?_⟩
    rw [State.raise_events, faultState_events, reportKinds_append, hquiet]
    rfl
  · have hevents : reportKinds t.events = [] := by
      rcases completes_events hc with he | ⟨v, he⟩
      · rw [he, State.fetched_events, hquiet]
      · rw [he, State.fetched_events, reportKinds_append, hquiet]
        rfl
    rw [CauseFits, hevents]
    rcases completes_run hc with ⟨-, hrun, hcause'⟩ | ⟨-, hrun, hcause'⟩
    · rw [hrun, hcause']
      exact ⟨iff_of_false nofun nofun, rfl⟩
    · rw [hrun, hcause', State.fetched_run, State.fetched_haltCause, hnone]
      exact ⟨iff_of_true hr rfl, rfl⟩

/-- Settles O34: the parameters stay, memory is written canonically and inside, `pc` stops at `MEM_SIZE`, and the
cause and the reports fit. -/
theorem tickKeepsInvariant : Obligations.TickKeepsInvariant := by
  intro s t hs h
  rcases step_idle_or_running h with ⟨-, rfl⟩ | hr
  · exact hs
  · obtain ⟨hwf, hin⟩ := step_memory hs.canonical hs.inMemory h
    obtain ⟨hcause, hreports⟩ := tick_causeFits ⟨hs.cause, hs.reports⟩ hr h
    have hcfg := step_cfg h
    exact ⟨hcfg ▸ hs.legal, hwf, hcfg ▸ hin, hcfg ▸ step_pc_le hs.pcRange h, hcause, hreports⟩

theorem resetWith_inv {c : Config} {p : ResetParams} (hc : c.legal = true) (hwf : p.mem.wf = true)
    (hin : p.mem.below c.memSize = true) : (State.resetWith c p).Inv :=
  ⟨hc, hwf, hin, Nat.zero_le _, iff_of_true rfl rfl, rfl⟩

/-- Settles O35: the reset state is Running at address 0 with an empty history, and `State.reset` is one of them. -/
theorem resetEstablishesInvariant : Obligations.ResetEstablishesInvariant :=
  ⟨fun _ _ => resetWith_inv, resetWith_inv resetConfig_legal rfl rfl⟩

/-! ### The end of a run -/

/-- Settles O37: each end is one row of `State.runEnd`. -/
theorem modelFaultsAreNoResults : Obligations.ModelFaultsAreNoResults := by
  intro s
  refine ⟨fun hr => ?_, fun hr => ⟨fun hc => ?_, fun hc => ?_, fun hc => ?_, fun hc => ?_⟩⟩
  · have hend : s.runEnd = none := by simp only [State.runEnd, hr]
    exact ⟨hend, by simp only [State.observeRun, hend]⟩
  · have hend : s.runEnd = some .normal := by simp only [State.runEnd, hr, hc]
    exact ⟨hend, by simp only [State.observeRun, hend]⟩
  · have hend : s.runEnd = some .invalidOpcode := by simp only [State.runEnd, hr, hc]
    exact ⟨hend, by simp only [State.observeRun, hend]⟩
  · simp only [State.observeRun, State.runEnd, hr, hc]
  · simp only [State.observeRun, State.runEnd, hr, hc]

end Sys2Proof.Proofs.Invariant
end

section
/-! PROOFS. The host's moves: lines, loader, driver, and what no sequence of them changes
(70_reset_and_hazards.md, sections 2 and 3). -/

namespace Sys2Proof.Proofs.HostMoves

open Sys2Proof.Machine Sys2Proof.Expected Sys2Proof.Proofs.Tick Sys2Proof.Proofs.Invariant

/-! ### Single moves -/

/-- `RaiseLines` writes R6 or nothing, so every other field stays. -/
theorem raiseLines_cases (s : State) (m : Byte) :
    (s.run = .running ∧ s.raiseLines m = s.setReg 6 (s.is ||| m)) ∨ (s.run = .halted ∧ s.raiseLines m = s) := by
  unfold State.raiseLines
  cases hr : s.run with
  | running => exact .inl ⟨rfl, rfl⟩
  | halted => exact .inr ⟨rfl, rfl⟩

section
variable (s : State) (m : Byte)

@[simp] theorem raiseLines_cfg : (s.raiseLines m).cfg = s.cfg := by unfold State.raiseLines; split <;> rfl
@[simp] theorem raiseLines_pc : (s.raiseLines m).pc = s.pc := by unfold State.raiseLines; split <;> rfl
@[simp] theorem raiseLines_run : (s.raiseLines m).run = s.run := by unfold State.raiseLines; split <;> rfl
@[simp] theorem raiseLines_events : (s.raiseLines m).events = s.events := by unfold State.raiseLines; split <;> rfl

end

/-- Settles O38: the two cases of `raiseLines_cases`; IS is R6. -/
theorem raiseLinesSetsPending : Obligations.RaiseLinesSetsPending := by
  intro sys m
  refine ⟨fun hr => ?_, fun hr => ?_⟩
  · rcases raiseLines_cases sys.core m with ⟨-, he⟩ | ⟨hh, -⟩
    · exact congrArg (fun c => Host.Outcome.next { sys with core := c }) he
    · rw [hr] at hh; cases hh
  · rcases raiseLines_cases sys.core m with ⟨hh, -⟩ | ⟨-, he⟩
    · rw [hr] at hh; cases hh
    · exact congrArg (fun c => Host.Outcome.next { sys with core := c }) he

/-- An admitted `poke` is one write of memory (70_reset_and_hazards.md R174). -/
theorem move_poke {sys : System} {a : Nat} (ht : sys.ticked = false) (ha : a < sys.core.cfg.memSize) (v : Byte) :
    sys.move (.poke a v) = .next { sys with core := { sys.core with mem := sys.core.mem.write a v } } := by
  simp [System.move, System.poke, ht, ha]

/-- The host's `poke` is admitted in no other way. -/
theorem eq_of_move_poke {sys sys' : System} {a : Nat} {v : Byte} (h : sys.move (.poke a v) = .next sys') :
    sys' = { sys with core := { sys.core with mem := sys.core.mem.write a v } } := by
  simp only [System.move, System.poke] at h
  split at h
  · cases h
  · split at h
    · injection h with h
      exact h.symm
    · cases h

/-- Settles O39: an admitted `poke` is a canonical write; the other two clauses are its two refusals. -/
theorem pokeOnlyBeforeFirstTick : Obligations.PokeOnlyBeforeFirstTick := by
  intro sys a v
  refine ⟨fun ht ha hwf => ⟨_, move_poke ht ha v, fun c => ?_⟩, fun ht => ?_, fun ht ha => ?_⟩
  · rw [Memory.read_write hwf]
    exact if_congr eq_comm rfl rfl
  · simp [System.move, System.poke, ht]
  · simp [System.move, System.poke, ht, Nat.not_lt.2 ha]

/-- Requesting a tick is one tick of the core, after which a tick has been requested. -/
theorem tick_of_step {sys : System} {t : State} (h : step sys.core = .next t) :
    sys.tick = .next { sys with core := t, ticked := true } := by
  simp only [System.tick, h]

/-- Settles O40: `start`, `stop` and observing compute to their results; `step` and the started driver request one
tick. -/
theorem driverControlsOnlyTicking : Obligations.DriverControlsOnlyTicking := by
  intro sys t ht
  refine ⟨rfl, rfl, rfl, rfl, rfl, tick_of_step ht, fun hs => ?_, fun hs => ?_⟩
  · simp only [System.move, hs, if_true, tick_of_step ht]
  · simp [System.move, hs]

/-! ### Invariants of sequences of moves -/

/-- Settles O33: a tick keeps the parameters, and the other moves do not reach them. -/
theorem parametersNeverChange : Obligations.ParametersNeverChange := by
  refine ⟨fun s t h => step_cfg h, fun ms sys sys' h => ?_⟩
  refine System.moves_keep (P := fun u => u.core.cfg = sys.core.cfg) (fun u m u' hu hm => ?_) rfl h
  rcases System.move_cases hm with ⟨a, v, -, -, -, rfl⟩ | ⟨t, -, ht, rfl⟩ | ⟨l, -, rfl⟩ | ⟨-, b, rfl⟩
  · exact hu
  · exact (step_cfg ht).trans hu
  · exact (raiseLines_cfg u.core l).trans hu
  · exact hu

/-- An admitted `poke` keeps the core's invariant: the write is canonical and inside memory. -/
theorem write_inv {s : State} (hs : s.Inv) {a : Nat} (ha : a < s.cfg.memSize) (v : Byte) :
    State.Inv { s with mem := s.mem.write a v } :=
  ⟨hs.legal, Memory.wf_write hs.canonical a v, Memory.below_write hs.inMemory ha v, hs.pcRange, hs.cause, hs.reports⟩

/-- The core's invariant does not look at registers, so `RaiseLines` keeps it. -/
theorem raiseLines_inv {s : State} (hs : s.Inv) (m : Byte) : (s.raiseLines m).Inv := by
  rcases raiseLines_cases s m with ⟨-, he⟩ | ⟨-, he⟩
  · rw [he]
    exact ⟨hs.legal, hs.canonical, hs.inMemory, hs.pcRange, hs.cause, hs.reports⟩
  · rw [he]
    exact hs

/-- Settles O42: each move keeps the core's invariant, and only a tick, after which `ticked` is set, touches what the
second clause speaks of. -/
theorem hostMoveKeepsInvariant : Obligations.HostMoveKeepsInvariant := by
  intro sys sys' m hs h
  rcases System.move_cases h with ⟨a, v, -, -, ha, rfl⟩ | ⟨t, -, ht, rfl⟩ | ⟨l, -, rfl⟩ | ⟨-, b, rfl⟩
  · exact ⟨write_inv hs.core ha v, hs.unticked⟩
  · exact ⟨tickKeepsInvariant _ _ hs.core ht, nofun⟩
  · refine ⟨raiseLines_inv hs.core l, fun hun => ?_⟩
    rw [raiseLines_run, raiseLines_pc, raiseLines_events]
    exact hs.unticked hun
  · exact ⟨hs.core, hs.unticked⟩

/-- Settles O43: construction is reset, with no tick requested. -/
theorem constructionEstablishesInvariant : Obligations.ConstructionEstablishesInvariant := by
  intro c p hc hwf hin
  exact ⟨resetWith_inv hc hwf hin, fun _ => ⟨rfl, rfl, rfl⟩⟩

/-- On a Halted core that has ticked, no move changes the core. -/
theorem move_core_of_halted {sys sys' : System} {m : HostMove} (hr : sys.core.run = .halted)
    (htick : sys.ticked = true) (h : sys.move m = .next sys') : sys'.core = sys.core ∧ sys'.ticked = true := by
  rcases System.move_cases h with ⟨a, v, -, hun, -, -⟩ | ⟨t, -, ht, rfl⟩ | ⟨l, -, rfl⟩ | ⟨-, b, rfl⟩
  · rw [htick] at hun
    cases hun
  · rw [step_halted hr] at ht
    injection ht with ht
    exact ⟨ht.symm, rfl⟩
  · rcases raiseLines_cases sys.core l with ⟨hrun, -⟩ | ⟨-, he⟩
    · rw [hr] at hrun
      cases hrun
    · exact ⟨he, htick⟩
  · exact ⟨rfl, htick⟩

/-- Settles O44: by the invariant a Halted core has ticked, so `poke` is refused and the other moves leave the core. -/
theorem nothingWakesHaltedCore : Obligations.NothingWakesHaltedCore := by
  intro ms sys sys' hs hr h
  have htick : sys.ticked = true := by
    by_contra hne
    obtain ⟨hrun, -, -⟩ := hs.unticked (Bool.eq_false_of_not_eq_true hne)
    rw [hr] at hrun
    cases hrun
  have hkeep := System.moves_keep (P := fun u => u.core = sys.core ∧ u.ticked = true)
    (fun u m u' hu hm => ?_) ⟨rfl, htick⟩ h
  · exact hkeep.1
  · obtain ⟨hcore, hticked⟩ := hu
    obtain ⟨hcore', hticked'⟩ := move_core_of_halted (hcore ▸ hr) hticked hm
    exact ⟨hcore'.trans hcore, hticked'⟩

/-! ### Every driven run ends -/

/-- No move wakes a Halted core; a `poke`, admitted before the first tick, does not either. -/
theorem moves_halted {ms : List HostMove} {sys sys' : System} (hr : sys.core.run = .halted)
    (h : System.moves ms sys = .next sys') : sys'.core.run = .halted := by
  refine System.moves_keep (P := fun u => u.core.run = .halted) (fun u m u' hu hm => ?_) hr h
  rcases System.move_cases hm with ⟨a, v, -, -, -, rfl⟩ | ⟨t, -, ht, rfl⟩ | ⟨l, -, rfl⟩ | ⟨-, b, rfl⟩
  · exact hu
  · rw [step_halted hu] at ht
    injection ht with ht
    exact ht ▸ hu
  · exact (raiseLines_run u.core l).trans hu
  · exact hu

/-- A move requests one tick and makes it, or requests none and leaves `pc` and the parameters. -/
theorem move_requests {sys mid : System} {m : HostMove} (h : sys.move m = .next mid) (ms : List HostMove) :
    (step sys.core = .next mid.core ∧
      tickRequests sys.started (m :: ms) = tickRequests mid.started ms + 1) ∨
    (mid.core.pc = sys.core.pc ∧ mid.core.cfg = sys.core.cfg ∧
      tickRequests sys.started (m :: ms) = tickRequests mid.started ms) := by
  obtain ⟨t, ht⟩ := everyTickAnswersNext sys.core
  cases m with
  | poke a v =>
    obtain rfl := eq_of_move_poke h
    exact .inr ⟨rfl, rfl, rfl⟩
  | start => injection h with h; subst h; exact .inr ⟨rfl, rfl, rfl⟩
  | stop => injection h with h; subst h; exact .inr ⟨rfl, rfl, rfl⟩
  | step =>
    rw [System.move, tick_of_step ht] at h
    injection h with h
    subst h
    exact .inl ⟨ht, rfl⟩
  | driverTick =>
    rw [System.move] at h
    cases hs : sys.started with
    | true =>
      rw [if_pos hs, tick_of_step ht] at h
      injection h with h
      subst h
      exact .inl ⟨ht, by simp [tickRequests, hs]⟩
    | false =>
      rw [hs, if_neg Bool.false_ne_true] at h
      injection h with h
      subst h
      exact .inr ⟨rfl, rfl, by simp [tickRequests, hs]⟩
  | raiseLines l =>
    injection h with h
    subst h
    exact .inr ⟨raiseLines_pc sys.core l, raiseLines_cfg sys.core l, rfl⟩
  | observe => injection h with h; subst h; exact .inr ⟨rfl, rfl, rfl⟩

/-- Settles O45, by induction on the moves: a tick that does not halt leaves less room above `pc`, and the other moves
leave both the room and the count. -/
theorem everyDrivenRunHalts : Obligations.EveryDrivenRunHalts := by
  intro ms
  induction ms with
  | nil => intro sys sys' _ _ hcount; exact absurd hcount (Nat.not_lt_zero _)
  | cons m ms ih =>
    intro sys sys' hp h hcount
    obtain ⟨mid, hm, hms⟩ := System.moves_next.1 h
    rcases move_requests hm ms with ⟨ht, hreq⟩ | ⟨hpc, hcfg, hreq⟩
    · cases hr : mid.core.run with
      | halted => exact moves_halted hr hms
      | running =>
        obtain ⟨hle, hroom⟩ := step_room_lt hp ht hr
        exact ih mid sys' hle hms (by omega)
    · exact ih mid sys' (by rwa [hpc, hcfg]) hms (by rwa [hpc, hcfg, ← hreq])

/-! ### The boot sequence -/

/-- Memory with bytes written from an address on: what the loader's pokes leave. -/
def loaded : Memory → Nat → List Byte → Memory
  | m, _, [] => m
  | m, a, v :: vs => loaded (m.write a v) (a + 1) vs

theorem loaded_wf {m : Memory} (hm : m.wf = true) (a : Nat) (vs : List Byte) : (loaded m a vs).wf = true := by
  induction vs generalizing m a with
  | nil => exact hm
  | cons v vs ih => exact ih (Memory.wf_write hm a v) (a + 1)

/-- Loaded memory reads as the bytes from `a` on, and as before elsewhere. -/
theorem loaded_read {m : Memory} (hm : m.wf = true) (a c : Nat) (vs : List Byte) :
    (loaded m a vs).read c = if a ≤ c then (vs[c - a]?).getD (m.read c) else m.read c := by
  induction vs generalizing m a with
  | nil => simp [loaded]
  | cons v vs ih =>
    rw [loaded, ih (Memory.wf_write hm a v), Memory.read_write hm]
    rcases Nat.lt_trichotomy c a with hlt | rfl | hgt
    · rw [if_neg (by omega), if_neg (by omega), if_neg (by omega)]
    · rw [if_neg (by omega), if_pos rfl, if_pos le_rfl, Nat.sub_self]
      rfl
    · obtain ⟨j, rfl⟩ := Nat.exists_eq_add_of_lt hgt
      rw [if_pos (by omega), if_neg (by omega), if_pos (by omega), Nat.add_sub_add_right, Nat.add_sub_cancel_left,
        Nat.add_assoc, Nat.add_sub_cancel_left, List.getElem?_cons_succ]

/-- Before the first tick the pokes of an image that fits go through, one write each. -/
theorem moves_loadFrom {sys : System} {a : Nat} {vs : List Byte} (ht : sys.ticked = false)
    (hfits : a + vs.length ≤ sys.core.cfg.memSize) (ms : List HostMove) :
    System.moves (loadFrom a vs ++ ms) sys =
      System.moves ms { sys with core := { sys.core with mem := loaded sys.core.mem a vs } } := by
  induction vs generalizing sys a with
  | nil => rfl
  | cons v vs ih =>
    rw [List.length_cons] at hfits
    simp only [loadFrom, List.cons_append, System.moves, move_poke ht (show a < sys.core.cfg.memSize by omega) v]
    exact ih (sys := { sys with core := { sys.core with mem := sys.core.mem.write a v } }) ht
      (show a + 1 + vs.length ≤ sys.core.cfg.memSize by omega)

/-- Settles O41: the pokes leave the loaded memory, and `start` sets the driver's flag. -/
theorem bootLoadsTheImage : Obligations.BootLoadsTheImage := by
  intro c p image hwf hfits
  have hfits' : 0 + image.length ≤ c.memSize := by omega
  refine ⟨loaded p.mem 0 image, ?_, loaded_wf hwf 0 image, fun a => ?_⟩
  · exact moves_loadFrom (sys := System.construct c p) rfl hfits' [.start]
  · rw [loaded_read hwf, if_pos (Nat.zero_le a), Nat.sub_zero]
    split
    · next h => rw [List.getElem?_eq_getElem h, Option.getD_some]
    · next h => rw [List.getElem?_eq_none (Nat.not_lt.1 h), Option.getD_none]

end Sys2Proof.Proofs.HostMoves
end

section
/-! PROOFS. The sink's decimal text and assembly text (44_output.md R131; 30_encoding.md R62, R69). -/

namespace Sys2Proof.Proofs.Text

open Sys2Proof.Machine Sys2Proof.Expected

/-! ### Digits -/

theorem digitValue_digitChar {d : Nat} (h : d < 10) : digitValue 10 (digitChar d) = some d := by
  revert h
  revert d
  decide

/-- One decimal digit moves the value read so far one place up. -/
theorem digitsValue_digitChar {d : Nat} (h : d < 10) (acc : Nat) (cs : List Char) :
    digitsValue 10 acc (digitChar d :: cs) = digitsValue 10 (acc * 10 + d) cs := by
  rw [digitsValue, digitValue_digitChar h]

/-- The decimal text of a number reads back as it. -/
theorem digitsValue_decimalChars {n : Nat} (h : n < 1000) : digitsValue 10 0 (decimalChars n) = some n := by
  unfold decimalChars
  split_ifs with h1 h2
  · rw [digitsValue_digitChar h1, digitsValue]
    exact congrArg some (by omega)
  · rw [digitsValue_digitChar (by omega), digitsValue_digitChar (by omega), digitsValue]
    exact congrArg some (by omega)
  · rw [digitsValue_digitChar (by omega), digitsValue_digitChar (by omega), digitsValue_digitChar (by omega),
      digitsValue]
    exact congrArg some (by omega)

/-- Decimal text begins with a digit, which is 0 for the number 0 alone; it holds no other character than digits. -/
theorem decimalChars_eq_cons {n : Nat} (h : n < 1000) :
    ∃ d cs, d < 10 ∧ decimalChars n = digitChar d :: cs ∧ (cs = [] ∨ d ≠ 0) := by
  unfold decimalChars
  split_ifs with h1 h2
  · exact ⟨n, [], h1, rfl, .inl rfl⟩
  · exact ⟨n / 10, _, by omega, rfl, .inr (by omega)⟩
  · exact ⟨n / 100, _, by omega, rfl, .inr (by omega)⟩

theorem digitChar_eq_zero_iff {d : Nat} (h : d < 10) : digitChar d = '0' ↔ d = 0 := by
  revert h
  revert d
  decide

theorem byte_lt_1000 (v : Byte) : v.toNat < 1000 := by
  have := v.isLt
  omega

/-- Settles O46: the decimal text is digits of the value, and begins with 0 for the value 0 alone. -/
theorem outputTextIsPlainDecimal : Obligations.OutputTextIsPlainDecimal := by
  intro v
  obtain ⟨d, cs, hd, hcons, hlead⟩ := decimalChars_eq_cons (byte_lt_1000 v)
  refine ⟨decimalChars v.toNat, rfl, digitsValue_decimalChars (byte_lt_1000 v), by simp [hcons], ?_⟩
  rw [hcons]
  refine hlead.imp (fun h => by simp [h]) fun h0 h => ?_
  exact h0 ((digitChar_eq_zero_iff hd).1 (Option.some.inj h))

/-! ### Registers and immediates -/

/-- Digits with a value are digits throughout. -/
theorem notMem_of_digitsValue {base acc n : Nat} {c : Char} {cs : List Char} (hc : digitValue base c = none)
    (h : digitsValue base acc cs = some n) : c ∉ cs := by
  intro hmem
  rw [digitsValue_eq_none hc hmem] at h
  cases h

/-- `r` and a number above 7 is no register. -/
theorem parseReg_eq_none_of_le {ds : List Char} {n : Nat} (h : digitsValue 10 0 ds = some n) (hn : 8 ≤ n) :
    parseReg ('r' :: ds) = none := by
  cases ds with
  | nil => rfl
  | cons c cs => simp [parseReg, h, Nat.not_lt.2 hn]

/-- A selector's text reads back exactly where it selects a register (30_encoding.md R62). -/
theorem parseReg_regText (b : Byte) : parseReg (regText b) = if validSelector b then some b else none := by
  have hval := digitsValue_decimalChars (byte_lt_1000 b)
  by_cases hb : b.toNat < 8
  · obtain ⟨d, cs, -, hcons, -⟩ := decimalChars_eq_cons (byte_lt_1000 b)
    rw [hcons] at hval
    simp [regText, hcons, parseReg, hval, hb, validSelector]
  · rw [regText, parseReg_eq_none_of_le hval (Nat.not_lt.1 hb)]
    simp [validSelector, hb]

/-- Decimal text is no `0x..`: it begins with 0 only where it ends there. -/
theorem parseNumber_decimalChars {n : Nat} (h : n < 1000) : parseNumber (decimalChars n) = some n := by
  obtain ⟨d, cs, hd, hcons, hlead⟩ := decimalChars_eq_cons h
  rw [← digitsValue_decimalChars h, hcons]
  unfold parseNumber
  split
  · next he => cases he
  · next c ds he =>
    obtain ⟨hzero, htail⟩ := List.cons.inj he
    rcases hlead with rfl | h0
    · cases htail
    · exact absurd ((digitChar_eq_zero_iff hd).1 hzero) h0
  · next he => rw [he]

/-- An immediate's decimal text reads back. -/
theorem parseImm_decimalChars (v : Byte) : parseImm (decimalChars v.toNat) = some v := by
  simp [parseImm, parseNumber_decimalChars (byte_lt_1000 v), v.isLt]

/-- An immediate that is no number, or a number above 255, is rejected. -/
theorem parseImm_eq_none_of_le {cs : List Char} (h : ∀ n, parseNumber cs = some n → 256 ≤ n) : parseImm cs = none := by
  unfold parseImm
  split
  · next n hn => exact if_neg (Nat.not_lt.2 (h n hn))
  · rfl

/-! ### Two operands -/

theorem splitAtChar_eq_none {sep : Char} {cs : List Char} (h : sep ∉ cs) : splitAtChar sep cs = none := by
  induction cs with
  | nil => rfl
  | cons c cs ih =>
    rw [List.mem_cons, not_or] at h
    simp [splitAtChar, Ne.symm h.1, ih h.2]

/-- Text without a comma is no pair of operands. -/
theorem parsePair_eq_none_of_notMem {f g : List Char → Option Byte} {cs : List Char} (h : ',' ∉ cs) :
    parsePair f g cs = none := by
  simp [parsePair, splitOperands, splitAtChar_eq_none h]

/-- The first comma separates the operands, and the spaces after it are dropped (30_encoding.md R69). -/
theorem parsePair_append {xs : List Char} (h : ',' ∉ xs) (f g : List Char → Option Byte) (ys : List Char) :
    parsePair f g (xs ++ ',' :: ys) =
      (f xs).bind fun v => (g (ys.dropWhile fun c => c == ' ')).map fun w => (v, w) := by
  simp only [parsePair, splitOperands, splitAtChar_append h, Option.map_some]
  cases f xs <;> cases g (ys.dropWhile fun c => c == ' ') <;> rfl

theorem dropWhile_spaces {cs : List Char} (h : cs.head? ≠ some ' ') (spaces : Nat) :
    (List.replicate spaces ' ' ++ cs).dropWhile (fun c => c == ' ') = cs := by
  induction spaces with
  | zero =>
    cases cs with
    | nil => rfl
    | cons c cs => simpa using h
  | succ n ih => simpa [List.replicate_succ] using ih

/-- The spaces before the second operand do not matter. -/
theorem parsePair_spaces {xs ys : List Char} (hxs : ',' ∉ xs) (hys : ys.head? ≠ some ' ')
    (f g : List Char → Option Byte) (spaces : Nat) :
    parsePair f g (xs ++ ',' :: (List.replicate spaces ' ' ++ ys)) =
      (f xs).bind fun v => (g ys).map fun w => (v, w) := by
  rw [parsePair_append hxs, dropWhile_spaces hys]

theorem comma_mem_dropWhile {cs : List Char} (h : ',' ∈ cs) : ',' ∈ cs.dropWhile fun c => c == ' ' := by
  induction cs with
  | nil => cases h
  | cons c cs ih =>
    rw [List.dropWhile_cons]
    split
    · next hc =>
      rcases List.mem_cons.1 h with rfl | h
      · exact absurd hc (by decide)
      · exact ih h
    · exact h

/-- A second operand that its parser rejects is rejected behind any first operand, where the parser takes no comma:
a comma in the first operand would end it sooner, and leave one in the second. -/
theorem parsePair_eq_none_of_snd {g : List Char → Option Byte} {ys : List Char} (hg : ∀ zs, ',' ∈ zs → g zs = none)
    (hys : ys.head? ≠ some ' ') (hnone : g ys = none) (f : List Char → Option Byte) (fst : List Char) (spaces : Nat) :
    parsePair f g (fst ++ ',' :: (List.replicate spaces ' ' ++ ys)) = none := by
  by_cases hc : ',' ∈ fst
  · obtain ⟨as, bs, rfl, has⟩ := List.eq_append_cons_of_mem hc
    rw [List.append_assoc, List.cons_append, parsePair_append has, hg _ (comma_mem_dropWhile (by simp))]
    simp
  · rw [parsePair_spaces hc hys, hnone]
    simp

/-- A first operand that its parser rejects is rejected before any second one. -/
theorem parsePair_eq_none_of_fst {f : List Char → Option Byte} {xs : List Char} (hxs : ',' ∉ xs) (hnone : f xs = none)
    (g : List Char → Option Byte) (ys : List Char) : parsePair f g (xs ++ ',' :: ys) = none := by
  rw [parsePair_append hxs, hnone]
  rfl

/-- What a pair of operands answers comes from the two parsers. -/
theorem parsePair_eq_some {f g : List Char → Option Byte} {cs : List Char} {p : Byte × Byte}
    (h : parsePair f g cs = some p) : ∃ a b, f a = some p.1 ∧ g b = some p.2 := by
  unfold parsePair at h
  split at h
  · next a b _ =>
    split at h
    · next v w hv hw =>
      injection h with h
      subst h
      exact ⟨a, b, hv, hw⟩
    · cases h
  · cases h

/-- A comma is part of no register and no immediate. -/
theorem parseReg_comma (cs : List Char) (h : ',' ∈ cs) : parseReg cs = none :=
  parseReg_eq_none (by decide) (by decide) h

theorem parseImm_comma (cs : List Char) (h : ',' ∈ cs) : parseImm cs = none :=
  parseImm_eq_none (by decide) (by decide) (by decide) h

/-! ### Instructions -/

theorem comma_notMem_regText (b : Byte) : ',' ∉ regText b := by
  rw [regText, List.mem_cons, not_or]
  exact ⟨by decide, notMem_of_digitsValue (by decide) (digitsValue_decimalChars (byte_lt_1000 b))⟩

/-- Decimal text begins with no space. -/
theorem head?_decimalChars (v : Byte) : (decimalChars v.toNat).head? ≠ some ' ' := by
  have hsp : ' ' ∉ decimalChars v.toNat :=
    notMem_of_digitsValue (by decide) (digitsValue_decimalChars (byte_lt_1000 v))
  exact fun h => hsp (List.mem_of_mem_head? h)

/-- Two operands' texts read back together, where the selector is valid and the second parser reads its text. -/
theorem parsePair_regText (r : Byte) (g : List Char → Option Byte) {ys : List Char} (h : ys.head? ≠ some ' ') :
    parsePair parseReg g (regText r ++ ',' :: ys) =
      if validSelector r then (g ys).map fun w => (r, w) else none := by
  refine (parsePair_spaces (comma_notMem_regText r) h parseReg g 0).trans ?_
  rw [parseReg_regText]
  split <;> rfl

theorem head?_regText (r : Byte) : (regText r).head? ≠ some ' ' := by
  simp [regText]

theorem parsePair_regText_regText (rA rB : Byte) :
    parsePair parseReg parseReg (regText rA ++ ',' :: regText rB) =
      if validSelector rA && validSelector rB then some (rA, rB) else none := by
  rw [parsePair_regText rA parseReg (head?_regText rB), parseReg_regText]
  cases validSelector rA <;> cases validSelector rB <;> rfl

theorem parsePair_regText_decimalChars (r imm : Byte) :
    parsePair parseReg parseImm (regText r ++ ',' :: decimalChars imm.toNat) =
      if validSelector r then some (r, imm) else none := by
  rw [parsePair_regText r parseImm (head?_decimalChars imm), parseImm_decimalChars]
  rfl

/-- An instruction's text, in either spelling, assembles to it exactly where it is well-formed: each operand reads
back where its selector is valid. -/
theorem assemble_operandText {i : Instr} {name : List Char} (hn : Names i.handler name) :
    assemble (name ++ i.operandText) = if i.wellFormed then some i else none := by
  cases i with
  | halt => rcases hn with rfl | rfl <;> decide
  | loadImmediate r imm =>
    refine (assemble_name (k := .loadImmediate) hn _).trans ?_
    rw [parseOperands, List.append_eq, parsePair_regText_decimalChars]
    exact apply_ite (Option.map fun p : Byte × Byte => Instr.loadImmediate p.1 p.2) _ _ _
  | multiply rA rB =>
    refine (assemble_name (k := .multiply) hn _).trans ?_
    rw [parseOperands, List.append_eq, parsePair_regText_regText]
    exact apply_ite (Option.map fun p : Byte × Byte => Instr.multiply p.1 p.2) _ _ _
  | printRegister r =>
    refine (assemble_name (k := .printRegister) hn _).trans ?_
    rw [parseOperands, parseReg_regText]
    exact apply_ite (Option.map Instr.printRegister) _ _ _
  | store rA rB =>
    refine (assemble_name (k := .store) hn _).trans ?_
    rw [parseOperands, List.append_eq, parsePair_regText_regText]
    exact apply_ite (Option.map fun p : Byte × Byte => Instr.store p.1 p.2) _ _ _

theorem validSelector_of_parseReg {cs : List Char} {b : Byte} (h : parseReg cs = some b) : validSelector b = true :=
  decide_eq_true (parseReg_lt h)

/-- Operands that are read make a well-formed instruction: every register is. -/
theorem wellFormed_of_parseOperands {k : Handler} {cs : List Char} {i : Instr} (h : parseOperands k cs = some i) :
    i.wellFormed = true := by
  cases k with
  | halt => cases h
  | loadImmediate =>
    obtain ⟨p, hp, rfl⟩ := Option.map_eq_some_iff.1 h
    obtain ⟨a, b, hr, -⟩ := parsePair_eq_some hp
    exact validSelector_of_parseReg hr
  | multiply =>
    obtain ⟨p, hp, rfl⟩ := Option.map_eq_some_iff.1 h
    obtain ⟨a, b, hA, hB⟩ := parsePair_eq_some hp
    exact Bool.and_eq_true_iff.2 ⟨validSelector_of_parseReg hA, validSelector_of_parseReg hB⟩
  | printRegister =>
    obtain ⟨r, hr, rfl⟩ := Option.map_eq_some_iff.1 h
    exact validSelector_of_parseReg hr
  | store =>
    obtain ⟨p, hp, rfl⟩ := Option.map_eq_some_iff.1 h
    obtain ⟨a, b, hA, hB⟩ := parsePair_eq_some hp
    exact Bool.and_eq_true_iff.2 ⟨validSelector_of_parseReg hA, validSelector_of_parseReg hB⟩

theorem wellFormed_of_assemble {cs : List Char} {i : Instr} (h : assemble cs = some i) : i.wellFormed = true := by
  rcases assemble_cases h with rfl | ⟨m, ops, k, -, -, hops⟩
  · rfl
  · exact wellFormed_of_parseOperands hops

/-- LOAD-IMMEDIATE with a bad immediate is rejected, whatever its first operand. -/
theorem assemble_bad_immediate {name imm : List Char} (hn : Names .loadImmediate name) (hsp : imm.head? ≠ some ' ')
    (hbad : ∀ n, parseNumber imm = some n → 256 ≤ n) (fst : List Char) (spaces : Nat) :
    assemble (name ++ ' ' :: fst ++ ',' :: (List.replicate spaces ' ' ++ imm)) = none := by
  rw [List.append_assoc, List.cons_append, assemble_name hn, parseOperands,
    parsePair_eq_none_of_snd parseImm_comma hsp (parseImm_eq_none_of_le hbad)]
  rfl

/-- Operands are rejected where each of the three ways to read them rejects them. -/
theorem parseOperands_eq_none {cs : List Char} (hreg : parseReg cs = none)
    (himm : parsePair parseReg parseImm cs = none) (hrr : parsePair parseReg parseReg cs = none) (k : Handler) :
    parseOperands k cs = none := by
  cases k with
  | halt => rfl
  | loadImmediate => rw [parseOperands, himm]; rfl
  | multiply => rw [parseOperands, hrr]; rfl
  | printRegister => rw [parseOperands, hreg]; rfl
  | store => rw [parseOperands, hrr]; rfl

section
variable {ds : List Char} {n : Nat}

/-- `r` and digits hold no comma. -/
theorem comma_notMem_reg (hd : digitsValue 10 0 ds = some n) : ',' ∉ 'r' :: ds := by
  rw [List.mem_cons, not_or]
  exact ⟨by decide, notMem_of_digitsValue (by decide) hd⟩

/-- A register number above 7 is rejected as the only operand, as the first, and as the second. -/
theorem parseOperands_bad_register (hd : digitsValue 10 0 ds = some n) (hn : 8 ≤ n) (k : Handler) :
    parseOperands k ('r' :: ds) = none ∧
    (∀ snd, parseOperands k ('r' :: ds ++ ',' :: snd) = none) ∧
    ∀ (fst : List Char) (spaces : Nat),
      parseOperands k (fst ++ ',' :: (List.replicate spaces ' ' ++ 'r' :: ds)) = none := by
  have hreg : parseReg ('r' :: ds) = none := parseReg_eq_none_of_le hd hn
  have himm : parseImm ('r' :: ds) = none := parseImm_eq_none (c := 'r') (by decide) (by decide) (by decide) (by simp)
  have hcomma : ',' ∉ 'r' :: ds := comma_notMem_reg hd
  have hsp : ('r' :: ds).head? ≠ some ' ' := by simp
  refine ⟨?_, fun snd => ?_, fun fst spaces => ?_⟩
  · exact parseOperands_eq_none hreg (parsePair_eq_none_of_notMem hcomma) (parsePair_eq_none_of_notMem hcomma) k
  · exact parseOperands_eq_none (parseReg_comma _ (by simp)) (parsePair_eq_none_of_fst hcomma hreg _ _)
      (parsePair_eq_none_of_fst hcomma hreg _ _) k
  · exact parseOperands_eq_none (parseReg_comma _ (by simp))
      (parsePair_eq_none_of_snd parseImm_comma hsp himm _ _ _)
      (parsePair_eq_none_of_snd parseReg_comma hsp hreg _ _ _) k

end

/-- Settles O47: a good line reads back operand by operand; a bad operand is rejected wherever the commas and spaces
around it put it. -/
theorem assemblerReadsBackText : Obligations.AssemblerReadsBackText := by
  refine ⟨fun i => ⟨assemble_operandText (.inl rfl), assemble_operandText (.inr rfl)⟩,
    fun cs i => wellFormed_of_assemble,
    fun name fst imm spaces hn hsp hbad => assemble_bad_immediate hn hsp hbad fst spaces,
    fun h name ds n hn hd hle => ?_⟩
  obtain ⟨hone, hfst, hsnd⟩ := parseOperands_bad_register hd hle h
  refine ⟨(assemble_name hn _).trans hone, fun snd => ?_, fun fst spaces => ?_⟩
  · rw [List.append_assoc, List.cons_append, assemble_name hn]
    exact hfst snd
  · rw [List.append_assoc, List.cons_append, assemble_name hn]
    exact hsnd fst spaces

end Sys2Proof.Proofs.Text
end
